-- ==== Sys2Proof/Word.lean ====
section
/-! DEFINITION. The word and byte types (00_scope.md rules R2 and R4). -/

namespace Sys2Proof

/-- A state word, a counter value or a command-port word: exactly 32 bits (rule R2). Its `+` and
`^^^` are rule R5's `+` (mod 2^32) and `^`. -/
abbrev Word := BitVec 32

/-- A `u8` (rule R4): one byte of a key, a nonce or a buffer. -/
abbrev Byte := BitVec 8

end Sys2Proof
end

