-- ==== Sys2Proof/Config.lean ====
section
/-! DEFINITION. What one system fixes (00_scope.md section 4, implementation parameters), and the
free values: constants with no body, of which nothing can be proved. -/

namespace Sys2Proof.Config

/-- OPEN parameter (92_eei_decisions.md D15): the system holds this many instances beside the first.
No body: a claim about `nInst` holds for every count. DESIGN CHOICE of form, safe: log entry 2. -/
opaque extraInstances : Nat

/-- `N_INST`, at least 1 (60_exceptions.md rule R220). -/
def nInst : Nat := extraInstances + 1

/-- FREE VALUE (93_implementation_defined.md U9, "any value"): what word `S[i]` of the instance on
`port` holds after that instance's reset number `draw`, for i in 4..15. No body. DESIGN CHOICE, safe: log entry 4. -/
opaque unspecifiedWord : (port draw i : Nat) → Word

/-- `MAX_BUF`, the largest buffer a command carries: 2^32 - 1 bytes (20_memory.md rule R41). -/
def maxBuf : Nat := 4294967295

end Sys2Proof.Config
end

