-- ==== Sys2Proof/Syntax.lean ====
section
/-! DEFINITION. The commands, one constructor per row of spec/opcode_table.json, and the packets that
carry them (30_encoding.md). -/

namespace Sys2Proof

/-- The six commands of 30_encoding.md rule R62, with their operands as rule R73 hands them on.
KLEN, NLEN, SIZE and SSIZE are the lengths of the byte lists (rule R77). -/
inductive Instr where
  /-- SETSTATE, 41_state_builder.md rule R102. -/
  | setstate (key nonce : List Byte) (ctr : Word)
  /-- GETCTR, rule R104. -/
  | getctr
  /-- SETCTR, rule R106. -/
  | setctr (value : Word)
  /-- XFORM, 44_transform.md rule R164. -/
  | xform (buf : List Byte)
  /-- XFORMR, rule R165. -/
  | xformr (buf : List Byte) (start length : Word)
  /-- XFORMC, rule R168. -/
  | xformc (src : List Byte) (dsize start length : Word)
deriving DecidableEq, Repr

/-- The assigned values of the header's OPC field (rule R62). -/
inductive Opcode where
  | setstate | getctr | setctr | xform | xformr | xformc
deriving DecidableEq, Repr

/-- A packet on a port (rules R60 and R74): `P[0]` and the rest, so that it is never empty. -/
structure Packet where
  header  : Word
  payload : List Word
deriving DecidableEq, Repr

/-- The packet's word count `n` (rule R60). -/
def Packet.count (p : Packet) : Nat := p.payload.length + 1

/-- Why a packet decodes to no command (rule R75). The host sees one status for all four, ILLEGAL_COMMAND;
the names are the model's own: DESIGN CHOICE, safe, log entry 10. -/
inductive Illegal where
  /-- OPC 0x00 or 0x07 to 0xFF. -/
  | reservedOpcode
  /-- A set bit in `P[0][31:24]`. -/
  | reservedBits
  /-- A set bit in `P[0][23:8]` of a command other than SETSTATE. -/
  | lengthBits
  /-- A word count other than the one the header and the size word require. -/
  | wordCount
deriving DecidableEq, Repr

end Sys2Proof
end

