-- ==== Sys2Proof/WellFormed.lean ====
section
/-! DEFINITION. Which commands a packet can carry: the length fields' widths (30_encoding.md rules R61
and R64, 20_memory.md rule R41). Every key and nonce length from 0 to 255 is well formed: the wrong
ones are answered by SETSTATE itself (rule R65). -/

namespace Sys2Proof

/-- KLEN and NLEN are 8-bit fields, SIZE and SSIZE 32-bit words. -/
def Instr.wf : Instr → Bool
  | .setstate key nonce _ => decide (key.length ≤ 255) && decide (nonce.length ≤ 255)
  | .getctr => true
  | .setctr _ => true
  | .xform buf => decide (buf.length ≤ Config.maxBuf)
  | .xformr buf _ _ => decide (buf.length ≤ Config.maxBuf)
  | .xformc src _ _ _ => decide (src.length ≤ Config.maxBuf)

end Sys2Proof
end

