-- ==== Sys2Proof/Decode.lean ====
section
/-! DEFINITION. The byte order of packets, the decoder (30_encoding.md rule R73), the encoder (rules R65
to R72), and the decoder on a word of spec/opcode_table.json. -/

namespace Sys2Proof

/-- `ceil(n/4)`: how many words a region of `n` bytes occupies (rule R63). -/
def wordsFor (n : Nat) : Nat := (n + 3) / 4

/-- `le32` of 00_scope.md rule R7. -/
def le32 (b0 b1 b2 b3 : Byte) : Word :=
  BitVec.ofNat 32 (b0.toNat + 2 ^ 8 * b1.toNat + 2 ^ 16 * b2.toNat + 2 ^ 24 * b3.toNat)

/-- `bytes_le` of rule R7. -/
def bytesLe (w : Word) : List Byte :=
  [w.extractLsb' 0 8, w.extractLsb' 8 8, w.extractLsb' 16 8, w.extractLsb' 24 8]

/-- The `n` data bytes of a region (rule R63); the pad bytes above them are dropped unread. -/
def regionBytes (n : Nat) (ws : List Word) : List Byte := (ws.flatMap bytesLe).take n

/-- A region that carries the bytes `B`, its pad bytes zero (rule R63, as a response sends it). -/
def regionWords : List Byte → List Word
  | [] => []
  | [a] => [le32 a 0#8 0#8 0#8]
  | [a, b] => [le32 a b 0#8 0#8]
  | [a, b, c] => [le32 a b c 0#8]
  | a :: b :: c :: d :: rest => le32 a b c d :: regionWords rest

/-- `OPC`, header bits [7:0] (rule R61). -/
def Packet.opc (p : Packet) : Byte := p.header.extractLsb' 0 8

/-- `KLEN`, header bits [15:8]. -/
def Packet.klen (p : Packet) : Nat := (p.header.extractLsb' 8 8).toNat

/-- `NLEN`, header bits [23:16]. -/
def Packet.nlen (p : Packet) : Nat := (p.header.extractLsb' 16 8).toNat

/-- Header bits [23:8]: zero for every command but SETSTATE. -/
def Packet.lengthField (p : Packet) : BitVec 16 := p.header.extractLsb' 8 16

/-- Header bits [31:24]: reserved, zero. -/
def Packet.reserved (p : Packet) : Byte := p.header.extractLsb' 24 8

/-- The opcode map of rule R62; the other 250 values are reserved. -/
def Opcode.ofByte (b : Byte) : Option Opcode :=
  if b = 0x01#8 then some .setstate
  else if b = 0x02#8 then some .getctr
  else if b = 0x03#8 then some .setctr
  else if b = 0x04#8 then some .xform
  else if b = 0x05#8 then some .xformr
  else if b = 0x06#8 then some .xformc
  else none

/-- SETSTATE's payload: key region, nonce region, counter word (rule R65). The last match is the
word count test `n = 2 + ceil(klen/4) + ceil(nlen/4)`. -/
def decodeSetstate (klen nlen : Nat) (ws : List Word) : Except Illegal Instr :=
  match ws.drop (wordsFor klen + wordsFor nlen) with
  | [ctr] =>
    .ok (.setstate (regionBytes klen (ws.take (wordsFor klen)))
      (regionBytes nlen ((ws.drop (wordsFor klen)).take (wordsFor nlen))) ctr)
  | _ => .error .wordCount

/-- GETCTR has no payload (rule R67). -/
def decodeGetctr : List Word → Except Illegal Instr
  | [] => .ok .getctr
  | _ => .error .wordCount

/-- SETCTR's payload is the new counter (rule R68). -/
def decodeSetctr : List Word → Except Illegal Instr
  | [value] => .ok (.setctr value)
  | _ => .error .wordCount

/-- XFORM's payload: SIZE, then the buffer region (rule R70). -/
def decodeXform : List Word → Except Illegal Instr
  | size :: region =>
    if region.length = wordsFor size.toNat then .ok (.xform (regionBytes size.toNat region))
    else .error .wordCount
  | _ => .error .wordCount

/-- XFORMR's payload: SIZE, START, LENGTH, then the buffer region (rule R71). -/
def decodeXformr : List Word → Except Illegal Instr
  | size :: start :: length :: region =>
    if region.length = wordsFor size.toNat then
      .ok (.xformr (regionBytes size.toNat region) start length)
    else .error .wordCount
  | _ => .error .wordCount

/-- XFORMC's payload: SSIZE, DSIZE, START, LENGTH, then the source region (rule R72). -/
def decodeXformc : List Word → Except Illegal Instr
  | ssize :: dsize :: start :: length :: region =>
    if region.length = wordsFor ssize.toNat then
      .ok (.xformc (regionBytes ssize.toNat region) dsize start length)
    else .error .wordCount
  | _ => .error .wordCount

/-- Rule R73: every packet decodes to one command or is illegal, by the first failing test. -/
def decode (p : Packet) : Except Illegal Instr :=
  match Opcode.ofByte p.opc with
  | none => .error .reservedOpcode
  | some op =>
    if p.reserved ≠ 0#8 then .error .reservedBits
    else if op ≠ .setstate ∧ p.lengthField ≠ 0#16 then .error .lengthBits
    else match op with
      | .setstate => decodeSetstate p.klen p.nlen p.payload
      | .getctr => decodeGetctr p.payload
      | .setctr => decodeSetctr p.payload
      | .xform => decodeXform p.payload
      | .xformr => decodeXformr p.payload
      | .xformc => decodeXformc p.payload

/-! ### The encoder -/

/-- The value of OPC for a command (rule R62). -/
def Opcode.code : Opcode → Byte
  | .setstate => 0x01#8
  | .getctr => 0x02#8
  | .setctr => 0x03#8
  | .xform => 0x04#8
  | .xformr => 0x05#8
  | .xformc => 0x06#8

/-- Which opcode a command is sent with. -/
def Instr.opcode : Instr → Opcode
  | .setstate .. => .setstate
  | .getctr => .getctr
  | .setctr _ => .setctr
  | .xform _ => .xform
  | .xformr .. => .xformr
  | .xformc .. => .xformc

/-- The header word of rule R61: OPC in its lowest byte, then KLEN, then NLEN, then the reserved zeros. -/
def headerWord (op : Opcode) (klen nlen : Nat) : Word :=
  le32 op.code (BitVec.ofNat 8 klen) (BitVec.ofNat 8 nlen) 0#8

/-- A size field (rule R64). -/
def sizeWord (B : List Byte) : Word := BitVec.ofNat 32 B.length

/-- The packet of a well-formed command, pad bytes zero. -/
def encode : Instr → Packet
  | .setstate key nonce ctr =>
    ⟨headerWord .setstate key.length nonce.length, regionWords key ++ regionWords nonce ++ [ctr]⟩
  | .getctr => ⟨headerWord .getctr 0 0, []⟩
  | .setctr value => ⟨headerWord .setctr 0 0, [value]⟩
  | .xform buf => ⟨headerWord .xform 0 0, sizeWord buf :: regionWords buf⟩
  | .xformr buf start length =>
    ⟨headerWord .xformr 0 0, sizeWord buf :: start :: length :: regionWords buf⟩
  | .xformc src dsize start length =>
    ⟨headerWord .xformc 0 0, sizeWord src :: dsize :: start :: length :: regionWords src⟩

/-! ### One word of the opcode table -/

/-- How many payload words a packet with this header, and with `size` as its first payload word,
requires (rule R73); 0 for a reserved OPC. -/
def requiredPayload (p : Packet) (size : Word) : Nat :=
  match Opcode.ofByte p.opc with
  | none => 0
  | some .setstate => wordsFor p.klen + wordsFor p.nlen + 1
  | some .getctr => 0
  | some .setctr => 1
  | some .xform => 1 + wordsFor size.toNat
  | some .xformr => 3 + wordsFor size.toNat
  | some .xformc => 4 + wordsFor size.toNat

/-- `k` words of `w`, the least significant first. -/
def wordsOfNat : Nat → Nat → List Word
  | 0, _ => []
  | k + 1, w => BitVec.ofNat 32 w :: wordsOfNat k (w / 2 ^ 32)

/-- The packet whose bits, numbered as the opcode table numbers them, are `w`: word j of the packet is
bits [32j+31 : 32j]. Bits above `nbits` are operand words of zeros, as many as the packet requires.
DESIGN CHOICE, safe: log entry 6. -/
def tablePacket (nbits w : Nat) : Packet :=
  let given := wordsOfNat ((nbits + 31) / 32 - 1) (w % 2 ^ nbits / 2 ^ 32)
  let p : Packet := ⟨BitVec.ofNat 32 (w % 2 ^ nbits), given⟩
  ⟨p.header, given ++ List.replicate (requiredPayload p (given.headD 0#32) - given.length) 0#32⟩

/-- What the decoder reads from a word of the opcode table. -/
def decodeTableWord (nbits w : Nat) : Option Instr :=
  match decode (tablePacket nbits w) with
  | .ok i => some i
  | .error _ => none

end Sys2Proof
end

