-- ==== Sys2Proof/Machine/State.lean ====
section
/-! DEFINITION. The state of a system of instances (10_state.md), what the host sends it (20_memory.md
rule R52), why a step can stop, and the state after reset (rule R31). All of it is plain data. -/

namespace Sys2Proof.Machine

/-- The status codes of 60_exceptions.md rule R200. -/
inductive Status where
  | ok | invalidArgument | sizeMismatch | rangeViolation | illegalCommand | notInitialised
deriving DecidableEq, Repr

/-- One instance (10_state.md). `S[0..3]` are hardwired and need no storage (rule R21). -/
structure Instance where
  /-- `S[4..11]`, K0..K7 (rule R22). -/
  key : Vector Word 8
  /-- `S[12]`, CTR (rules R23 and R30). -/
  ctr : Word
  /-- `S[13..15]`, N0..N2 (rule R24). -/
  nonce : Vector Word 3
  /-- The flag INIT (rule R25). -/
  init : Bool
  /-- The packets sent on the instance's response port, oldest first (30_encoding.md rules R60 and
  R74). No command reads them. MODEL'S OWN field: DESIGN CHOICE, safe, log entry 5. -/
  responses : List Packet
  /-- How many resets have drawn free values. MODEL'S OWN field: DESIGN CHOICE, safe, log entry 4. -/
  draws : Nat
deriving DecidableEq, Repr

/-- What the host can do to an instance (20_memory.md rule R52). -/
inductive HostEvent where
  /-- One whole command packet is accepted by the command port. -/
  | command (p : Packet)
  /-- The instance's reset is asserted between commands (70_reset_and_hazards.md rule R230). -/
  | reset
  /-- The reset is asserted while this packet's command is in progress (rule R231). -/
  | resetDuring (p : Packet)
deriving DecidableEq, Repr

/-- An event at the instance on `port`; the port is an instance's only identifier (rule R220). -/
structure Arrival where
  port  : Nat
  event : HostEvent
deriving DecidableEq, Repr

/-- The system. Instance number `k` is the one on port `k`. -/
structure State where
  /-- The `N_INST` instances (rule R220). -/
  instances : List Instance
  /-- What the ports are to accept, in the order of acceptance (20_memory.md rules R48 and R50); the
  head is the command being executed. MODEL'S OWN field: DESIGN CHOICE, safe, log entry 3. -/
  inbox : List Arrival
deriving DecidableEq, Repr

/-- Why the machine stops. No behaviour of the hardware ends in a stop: a command's errors are status
codes in its response (60_exceptions.md rule R209). -/
inductive Fault where
  /-- Raised by `runCommand` and `resetArrival` when no instance is executing: nothing is in the inbox, or
  its head names a port beyond `N_INST`. Safe: no host can present such an arrival (rule R220). -/
  | noExecutingInstance
deriving DecidableEq, Repr

/-- Why a step has no meaning. -/
inductive Refusal where
  /-- Raised by an arm of `exec` whose command has no meaning yet; no arm is left so. Safe. -/
  | notModelled (mnemonic : String)
deriving DecidableEq, Repr

/-- An instance right after power-on reset (rule R31): INIT is 0 and nothing is in progress. The spec gives
`S[4..15]` no value; zero is the model's DESIGN CHOICE, unsafe, log entry 1; no command reads it. -/
def Instance.reset : Instance :=
  { key := #v[0, 0, 0, 0, 0, 0, 0, 0], ctr := 0, nonce := #v[0, 0, 0], init := false, responses := [], draws := 0 }

/-- The system right after reset: every instance reset, nothing sent to any port. -/
def State.reset : State :=
  { instances := List.replicate Config.nInst Instance.reset, inbox := [] }

end Sys2Proof.Machine
end

