-- ==== Sys2Proof/Machine/Flags.lean ====
section
/-! DEFINITION. The flag INIT (10_state.md rule R25) and the status word of a response (60_exceptions.md rule
R200, 30_encoding.md rule R74). The CORE has no other flag and no status register (rule R29). -/

namespace Sys2Proof.Machine

/-- INIT <- 1; only a successful SETSTATE does it (rule R25). -/
def Instance.setInit (c : Instance) : Instance := { c with init := true }

/-- INIT <- 0; only a reset does it (rule R25). -/
def Instance.clearInit (c : Instance) : Instance := { c with init := false }

/-- The 8-bit codes of rule R200. -/
def Status.code : Status → Byte
  | .ok => 0x00#8
  | .invalidArgument => 0x01#8
  | .sizeMismatch => 0x02#8
  | .rangeViolation => 0x03#8
  | .illegalCommand => 0x04#8
  | .notInitialised => 0x05#8

/-- `Q[0]`: the code in bits [7:0], zeros in [31:8] (rule R74). -/
def Status.word (st : Status) : Word := st.code.setWidth 32

end Sys2Proof.Machine
end

