-- ==== Sys2Proof/Machine/Ops.lean ====
section
/-! DEFINITION. The shared operations: reading and writing the Working State, reading and writing a buffer,
ending a command, ending it with an error, committing a command to its instance, and reset. -/

namespace Sys2Proof.Machine

/-! ### The Working State -/

/-- C0..C3, the hardwired constant words (10_state.md rule R21). -/
def constants : Vector Word 4 := #v[0x61707865, 0x3320646e, 0x79622d32, 0x6b206574]

/-- `S[0..15]` as every reader sees it (rules R20 and R21). -/
def Instance.words (c : Instance) : Vector Word 16 :=
  #v[constants[0], constants[1], constants[2], constants[3],
    c.key[0], c.key[1], c.key[2], c.key[3], c.key[4], c.key[5], c.key[6], c.key[7],
    c.ctr, c.nonce[0], c.nonce[1], c.nonce[2]]

/-- `S[i] <- W[i]` for i in 4..15; the hardwired words take no write (rule R21). -/
def Instance.storeWords (c : Instance) (W : Vector Word 16) : Instance :=
  { c with
    key := #v[W[4], W[5], W[6], W[7], W[8], W[9], W[10], W[11]]
    ctr := W[12]
    nonce := #v[W[13], W[14], W[15]] }

/-- `S[12] <- value` (rule R106). -/
def Instance.setCtr (c : Instance) (value : Word) : Instance := { c with ctr := value }

/-! ### Buffers (20_memory.md rules R41 and R44): one byte at a time, no alignment -/

/-- `MemRead(buf, i, 1)`. A range check has put `i` inside the buffer, so the 0 beyond it is never read: DEDUCED, safe, log entry 7. -/
def memRead (B : List Byte) (i : Nat) : Byte := B.getD i 0#8

/-- `MemWrite(buf, i, 1, v)`. -/
def memWrite (B : List Byte) (i : Nat) (v : Byte) : List Byte := B.set i v

/-! ### Ending a command -/

/-- What a command leaves: its instance, and the response it is answered with. -/
abbrev Answer := Instance × Packet

/-- `respond(OK, payload)` (00_scope.md rule R8). -/
def respond (c : Instance) (payload : List Word) : Answer := (c, ⟨Status.ok.word, payload⟩)

/-- `raise Error(st)`: the one way an error is taken (rule R8, 60_exceptions.md rules R205, R208 and R209). The
instance is left as it was and the response is the status word alone; nothing is saved, no mode changes, no
control is transferred, and there is nothing to return from (rule R210). -/
def raiseError (st : Status) (c : Instance) : Answer := (c, ⟨st.word, []⟩)

/-- `if INIT = 0: raise Error(NOT_INITIALISED)`, then the rest of the command (rule R201). -/
def requireInit (rest : Instance → Answer) (c : Instance) : Answer :=
  if c.init then rest c else raiseError .notInitialised c

/-- The response is put on the instance's response port, and nowhere else (rule R29). -/
def Instance.send (c : Instance) (q : Packet) : Instance := { c with responses := c.responses ++ [q] }

/-- The state in which the head of the inbox is done with and instance `port` has become `c`. -/
def State.commit (s : State) (port : Nat) (c : Instance) : State :=
  { instances := s.instances.set port c, inbox := s.inbox.tail }

/-- Runs `body` on the executing instance, the one on the port of the inbox's head, as one indivisible step
(rules R1 and R47): the instance it leaves and its one response are committed together. -/
def runCommand (body : Instance → Answer) (s : State) : Host.Outcome State Fault Refusal :=
  match s.inbox with
  | [] => .fault .noExecutingInstance
  | a :: _ =>
    match s.instances[a.port]? with
    | none => .fault .noExecutingInstance
    | some c => .next (s.commit a.port ((body c).1.send (body c).2))

/-- The event that is next to be served, if any: the ports' counterpart of an instruction fetch. -/
def fetch (s : State) : Option HostEvent := s.inbox.head?.map Arrival.event

/-- An undecodable packet is answered ILLEGAL_COMMAND and has no effect (30_encoding.md rule R73, rule R204). -/
def rejectPacket (s : State) : Host.Outcome State Fault Refusal := runCommand (raiseError .illegalCommand) s

/-- The CORE waits for a command on its ports (70_reset_and_hazards.md rule R232). DEDUCED, safe: log entry 9. -/
def idle (s : State) : Host.Outcome State Fault Refusal := .next s

/-! ### Reset -/

/-- Reset of one instance (rule R230): INIT is cleared, and `S[4..15]` hold no value, so each is a free value (U9).
Responses that were sent stay sent. DESIGN CHOICE, safe: log entries 4 and 5. -/
def Instance.resetOn (c : Instance) (port : Nat) : Instance :=
  let free := Config.unspecifiedWord port c.draws
  { c.clearInit with
    key := #v[free 4, free 5, free 6, free 7, free 8, free 9, free 10, free 11]
    ctr := free 12
    nonce := #v[free 13, free 14, free 15]
    draws := c.draws + 1 }

/-- The reset at the inbox's head is served. A command in progress is abandoned with it and gets no response
(rule R231). DEDUCED, safe: log entry 3. -/
def resetArrival (s : State) : Host.Outcome State Fault Refusal :=
  match s.inbox with
  | [] => .fault .noExecutingInstance
  | a :: _ =>
    match s.instances[a.port]? with
    | none => .fault .noExecutingInstance
    | some c => .next (s.commit a.port (c.resetOn a.port))

end Sys2Proof.Machine
end

