-- ==== Sys2Proof/Machine/Operands.lean ====
section
/-! DEFINITION. The operand forms: key, nonce and counter packed into words (41_state_builder.md rule R100), the range of a
transform (20_memory.md rule R45), and a buffer returned in a response (30_encoding.md rule R74). -/

namespace Sys2Proof.Machine

/-- KEY_BYTES (00_scope.md section 4). -/
def keyBytes : Nat := 32

/-- NONCE_BYTES. -/
def nonceBytes : Nat := 12

/-- `le32(B, i)` (rule R7), read only where `B` has the four bytes: DEDUCED, safe, log entry 7. -/
def le32At (B : List Byte) (i : Nat) : Word :=
  le32 (B.getD i 0#8) (B.getD (i + 1) 0#8) (B.getD (i + 2) 0#8) (B.getD (i + 3) 0#8)

/-- `pack(key, nonce, ctr)` of rule R100, for a key of 32 bytes and a nonce of 12. -/
def pack (key nonce : List Byte) (ctr : Word) : Vector Word 16 :=
  #v[constants[0], constants[1], constants[2], constants[3],
    le32At key 0, le32At key 4, le32At key 8, le32At key 12,
    le32At key 16, le32At key 20, le32At key 24, le32At key 28,
    ctr, le32At nonce 0, le32At nonce 4, le32At nonce 8]

/-- `start + length <= size` on unbounded integers: no sum wraps (rule R45). -/
def inRange (start length : Word) (size : Nat) : Bool := decide (start.toNat + length.toNat ≤ size)

/-- `respond(OK, buf)`: the whole buffer as a region (rule R74). -/
def respondBuffer (r : Instance × List Byte) : Answer := respond r.1 (regionWords r.2)

end Sys2Proof.Machine
end

