-- ==== Sys2Proof/Machine/Block.lean ====
section
/-! DEFINITION. The block function: quarter-round engine and 20-round mixing pipeline (42_block_function.md). One function,
as rule R131 lets a model have. -/

namespace Sys2Proof.Machine

/-- The 32-bit circular left rotation of 00_scope.md rule R5, for 0 < n < 32. -/
def rotl (x : Word) (n : Nat) : Word := (x <<< n) ||| (x >>> (32 - n))

/-- The quarter-round of rule R120: each step reads what the step before it wrote. -/
def quarterRound (a b c d : Word) : Word × Word × Word × Word :=
  let a := a + b; let d := d ^^^ a; let d := rotl d 16
  let c := c + d; let b := b ^^^ c; let b := rotl b 12
  let a := a + b; let d := d ^^^ a; let d := rotl d 8
  let c := c + d; let b := b ^^^ c; let b := rotl b 7
  (a, b, c, d)

/-- `QRX(X, i, j, k, l)` of rule R122: the quarter-round on four words of the working copy. -/
def qrx (X : Vector Word 16) (i j k l : Fin 16) : Vector Word 16 :=
  let r := quarterRound X[i] X[j] X[k] X[l]
  (((X.set i r.1).set j r.2.1).set k r.2.2.1).set l r.2.2.2

/-- Rule R124. -/
def columnRound (X : Vector Word 16) : Vector Word 16 :=
  let X := qrx X 0 4 8 12
  let X := qrx X 1 5 9 13
  let X := qrx X 2 6 10 14
  qrx X 3 7 11 15

/-- Rule R125. -/
def diagonalRound (X : Vector Word 16) : Vector Word 16 :=
  let X := qrx X 0 5 10 15
  let X := qrx X 1 6 11 12
  let X := qrx X 2 7 8 13
  qrx X 3 4 9 14

/-- Rule R126: the diagonal round reads what the column round wrote. -/
def doubleRound (X : Vector Word 16) : Vector Word 16 := diagonalRound (columnRound X)

/-- `n` double rounds, one after the other. -/
def doubleRounds : Nat → Vector Word 16 → Vector Word 16
  | 0, X => X
  | n + 1, X => doubleRounds n (doubleRound X)

/-- `perm` of rule R128: ten double rounds. -/
def perm (X : Vector Word 16) : Vector Word 16 := doubleRounds 10 X

/-- The final addition of rule R130, with the pre-round word. -/
def finalAdd (S : Vector Word 16) : Vector Word 16 := Vector.zipWith (· + ·) (perm S) S

/-- Serialisation, rule R129: 64 bytes, each word little-endian. -/
def serialize (Y : Vector Word 16) : List Byte := Y.toList.flatMap bytesLe

/-- The block function of rule R130. `S` itself is not written. -/
def block (S : Vector Word 16) : List Byte := serialize (finalAdd S)

end Sys2Proof.Machine
end

