-- ==== Sys2Proof/Machine/Sequencer.lean ====
section
/-! DEFINITION. The counter sequencer (43_counter_sequencer.md). -/

namespace Sys2Proof.Machine

/-- `advance()` of rule R150: `S[12]` goes up by 1, and if that wraps it to 0, `S[13]` goes up by 1, mod 2^32, with no carry
beyond. -/
def advance (c : Instance) : Instance :=
  let ctr := c.ctr + 1#32
  if ctr = 0#32 then { c with ctr := ctr, nonce := c.nonce.set 0 (c.nonce[0] + 1#32) }
  else { c with ctr := ctr }

/-- `adv^n` of 44_transform.md rule R160. -/
def advanceBy : Nat → Instance → Instance
  | 0, c => c
  | n + 1, c => advanceBy n (advance c)

end Sys2Proof.Machine
end

