-- ==== Sys2Proof/Machine/StateBuilder.lean ====
section
/-! DEFINITION. The state builder and the counter accessors (41_state_builder.md): SETSTATE, GETCTR and SETCTR. -/

namespace Sys2Proof.Machine

/-- SETSTATE on one instance (rule R102): the key's length is tested first, then the nonce's, before any write. -/
def setstateOn (key nonce : List Byte) (ctr : Word) (c : Instance) : Answer :=
  if key.length ≠ keyBytes then raiseError .invalidArgument c
  else if nonce.length ≠ nonceBytes then raiseError .invalidArgument c
  else respond (c.storeWords (pack key nonce ctr)).setInit []

/-- SETSTATE, rule R102. -/
def execSetstate (key nonce : List Byte) (ctr : Word) (s : State) : Host.Outcome State Fault Refusal :=
  runCommand (setstateOn key nonce ctr) s

/-- GETCTR on one instance (rule R104). -/
def getctrOn (c : Instance) : Answer := requireInit (fun c => respond c [c.ctr]) c

/-- GETCTR, rule R104. -/
def execGetctr (s : State) : Host.Outcome State Fault Refusal := runCommand getctrOn s

/-- SETCTR on one instance (rule R106). -/
def setctrOn (value : Word) (c : Instance) : Answer := requireInit (fun c => respond (c.setCtr value) []) c

/-- SETCTR, rule R106. -/
def execSetctr (value : Word) (s : State) : Host.Outcome State Fault Refusal := runCommand (setctrOn value) s

end Sys2Proof.Machine
end

