-- ==== Sys2Proof/Machine/Transform.lean ====
section
/-! DEFINITION. The transform engine (44_transform.md): the keystream, the shared datapath, and XFORM, XFORMR and XFORMC. -/

namespace Sys2Proof.Machine

/-- BLOCK_BYTES (00_scope.md section 4). -/
def blockBytes : Nat := 64

/-- Byte `p` of `keystream(S)` (rule R160), `S` the Working State of `c`. A block has 64 bytes, so `p mod 64` is inside it. -/
def keystream (c : Instance) (p : Nat) : Byte :=
  (block (advanceBy (p / blockBytes) c).words).getD (p % blockBytes) 0#8

/-- `for j in 0..n: MemWrite(B, cur + j, 1, MemRead(B, cur + j, 1) ^ KS[j])` (rule R162). -/
def xorBytes (KS : List Byte) (cur : Nat) : Nat → List Byte → List Byte
  | 0, B => B
  | j + 1, B =>
    let B := xorBytes KS cur j B
    memWrite B (cur + j) (memRead B (cur + j) ^^^ KS.getD j 0#8)

/-- The loop of `xor_range` (rule R162): while `cur < stop`, use one block and advance the counter once. Every turn moves `cur` on,
so `stop - cur` turns of fuel are enough for it to run to its end: DEDUCED, safe, log entry 7. -/
def xorLoop (stop : Nat) : Nat → Nat → Instance → List Byte → Instance × List Byte
  | 0, _, c, B => (c, B)
  | fuel + 1, cur, c, B =>
    if cur < stop then
      let KS := block c.words
      let n := min blockBytes (stop - cur)
      xorLoop stop fuel (cur + n) (advance c) (xorBytes KS cur n B)
    else (c, B)

/-- `xor_range(B, start, length)` of rule R162. -/
def xorRange (c : Instance) (B : List Byte) (start length : Nat) : Instance × List Byte :=
  xorLoop (start + length) length start c B

/-- XFORM on one instance (rule R164). -/
def xformOn (buf : List Byte) (c : Instance) : Answer :=
  requireInit (fun c => respondBuffer (xorRange c buf 0 buf.length)) c

/-- XFORM, rule R164. -/
def execXform (buf : List Byte) (s : State) : Host.Outcome State Fault Refusal := runCommand (xformOn buf) s

/-- XFORMR on one instance (rule R165): the range is tested before any byte is touched. -/
def xformrOn (buf : List Byte) (start length : Word) (c : Instance) : Answer :=
  requireInit (fun c =>
    if inRange start length buf.length then respondBuffer (xorRange c buf start.toNat length.toNat)
    else raiseError .rangeViolation c) c

/-- XFORMR, rule R165. -/
def execXformr (buf : List Byte) (start length : Word) (s : State) : Host.Outcome State Fault Refusal :=
  runCommand (xformrOn buf start length) s

/-- XFORMC on one instance (rule R168): the sizes are tested first, then the range, and only then is the source copied. -/
def xformcOn (src : List Byte) (dsize start length : Word) (c : Instance) : Answer :=
  requireInit (fun c =>
    if src.length ≠ dsize.toNat then raiseError .sizeMismatch c
    else if inRange start length dsize.toNat then
      let dst := src
      respondBuffer (xorRange c dst start.toNat length.toNat)
    else raiseError .rangeViolation c) c

/-- XFORMC, rule R168. -/
def execXformc (src : List Byte) (dsize start length : Word) (s : State) : Host.Outcome State Fault Refusal :=
  runCommand (xformcOn src dsize start length) s

end Sys2Proof.Machine
end

