-- ==== Sys2Proof/Machine/Dispatch.lean ====
section
/-! DEFINITION. One arm per command of spec/opcode_table.json. -/

namespace Sys2Proof.Machine

/-- The command `i`, executed by the instance on the port of the inbox's head. -/
def exec (i : Instr) (s : State) : Host.Outcome State Fault Refusal :=
  match i with
  | .setstate key nonce ctr => Sys2Proof.Machine.execSetstate key nonce ctr s
  | .getctr => Sys2Proof.Machine.execGetctr s
  | .setctr value => Sys2Proof.Machine.execSetctr value s
  | .xform buf => Sys2Proof.Machine.execXform buf s
  | .xformr buf start length => Sys2Proof.Machine.execXformr buf start length s
  | .xformc src dsize start length => Sys2Proof.Machine.execXformc src dsize start length s

end Sys2Proof.Machine
end

