-- ==== Sys2Proof/Machine/Step.lean ====
section
/-! DEFINITION. One step: the next event of the inbox is served (20_memory.md rules R47, R48 and R52). -/

namespace Sys2Proof.Machine

/-- A command runs as the decoder reads it (00_scope.md rule R1), an undecodable packet is answered so (30_encoding.md rule R73), a
reset is taken (70_reset_and_hazards.md rules R230 and R231), and with no event the CORE waits (rule R232). -/
def step (s : State) : Host.Outcome State Fault Refusal :=
  match fetch s with
  | none => idle s
  | some (.command p) =>
    match decode p with
    | .ok i => exec i s
    | .error _ => rejectPacket s
  | some .reset => resetArrival s
  | some (.resetDuring _) => resetArrival s

/-- `s` with the packet of a word of the opcode table presented on port 0 as the next command. A program is a sequence of packets
from the host (20_memory.md rule R53): this stands for the host's presenting one. DESIGN CHOICE, safe: log entry 6. -/
def State.withFetchWord (s : State) (nbits w : Nat) : State :=
  { s with inbox := ⟨0, .command (tablePacket nbits w)⟩ :: s.inbox }

end Sys2Proof.Machine
end

