-- ==== Sys2Proof/Safety.lean ====
section
/-! DEFINITION. The terms in which claims about a run are made: which instance executes, which states a host can bring about, what a
legal response is, and the spec's own quantities. Nothing here is used by the machine. -/

namespace Sys2Proof.Machine

/-- The instance on `port`, now `c`, executes: the inbox's head arrived there. -/
def State.Executing (s : State) (port : Nat) (c : Instance) : Prop :=
  s.inbox.head?.map Arrival.port = some port ∧ s.instances[port]? = some c

/-- Every event arrives at a port that has an instance; a host can bring about no other state (60_exceptions.md rule R220). -/
def State.PortsExist (s : State) : Prop := ∀ a ∈ s.inbox, a.port < s.instances.length

/-- A response as 30_encoding.md rule R74 and rule R200 have it: a code from 0 to 5 with zeros above it, and no payload unless it is OK. -/
def LegalResponse (q : Packet) : Prop := q.header.toNat ≤ 5 ∧ (q.header ≠ 0 → q.payload = [])

/-- A safe system: it has an instance, every arrival has one to go to, and every response it sent is legal. -/
def State.Inv (s : State) : Prop :=
  1 ≤ s.instances.length ∧ s.PortsExist ∧ ∀ c ∈ s.instances, ∀ q ∈ c.responses, LegalResponse q

/-- The response an instance sent last. -/
def State.lastResponse (s : State) (port : Nat) : Option Packet := s.instances[port]?.bind fun c => c.responses.getLast?

/-- Two instances that no host can tell apart from here on: INIT, the responses sent and the draws made are equal, and the Working State
is where INIT lets a command read it (10_state.md rule R31). -/
def Instance.AgreeWhereReadable (c d : Instance) : Prop :=
  c.init = d.init ∧ c.responses = d.responses ∧ c.draws = d.draws ∧ (c.init = true → c.words = d.words)

end Sys2Proof.Machine

namespace Sys2Proof.Spec
open Sys2Proof.Machine

/-- `ceil(n/4)`. -/
def ceil4 (n : Nat) : Nat := (n + 3) / 4

/-- `ceil(n/64)`: the blocks a transform of `n` bytes generates (43_counter_sequencer.md rule R152). -/
def blocks (n : Nat) : Nat := (n + 63) / 64

/-- The number `V` of rule R153. -/
def counter64 (c : Instance) : Nat := c.nonce[0].toNat * 2 ^ 32 + c.ctr.toNat

/-- How many of the `blocks n` advances of a transform of `n` bytes carry into `S[13]`. -/
def carries (c : Instance) (n : Nat) : Nat := (c.ctr.toNat + blocks n) / 2 ^ 32

/-- The closed form of 44_transform.md rule R163: the range XOR the keystream, every other byte as it was. -/
def xored (c : Instance) (B : List Byte) (start length : Nat) : List Byte :=
  B.mapIdx fun q b => if start ≤ q ∧ q < start + length then b ^^^ keystream c (q - start) else b

/-- OPC of a header word. -/
def opc (p : Packet) : Nat := p.header.toNat % 256

/-- KLEN. -/
def klen (p : Packet) : Nat := p.header.toNat / 2 ^ 8 % 256

/-- NLEN. -/
def nlen (p : Packet) : Nat := p.header.toNat / 2 ^ 16 % 256

/-- The packet has the word count its header, and its size word `P[1]`, require (30_encoding.md rules R65 to R72). -/
def CountMatches (p : Packet) : Prop :=
  match opc p, p.payload with
  | 1, ws => ws.length + 1 = 2 + ceil4 (klen p) + ceil4 (nlen p)
  | 2, ws => ws.length + 1 = 1
  | 3, ws => ws.length + 1 = 2
  | 4, size :: ws => ws.length + 2 = 2 + ceil4 size.toNat
  | 5, size :: ws => ws.length + 2 = 4 + ceil4 size.toNat
  | 6, size :: ws => ws.length + 2 = 5 + ceil4 size.toNat
  | _, _ => False

/-- The encodings that 30_encoding.md rule R75 calls illegal. -/
def IllegalPacket (p : Packet) : Prop :=
  opc p = 0 ∨ 7 ≤ opc p ∨ p.header.toNat / 2 ^ 24 ≠ 0 ∨ (opc p ≠ 1 ∧ p.header.toNat / 2 ^ 8 % 2 ^ 16 ≠ 0) ∨ ¬ CountMatches p

/-- The region that begins `off` words into the payload carries the bytes `B` (rule R63): byte `i` sits in word `i div 4`, at bits
`[8*(i mod 4)+7 : 8*(i mod 4)]`. Nothing is said of the pad bytes above them. -/
def Carries (payload : List Word) (off : Nat) (B : List Byte) : Prop :=
  ∀ i, i < B.length → B[i]? = payload[off + i / 4]?.map fun w => w.extractLsb' (8 * (i % 4)) 8

/-- The operands of a decoded command are the fields of its packet (rules R65 to R73). -/
def OperandsOf (p : Packet) : Instr → Prop
  | .setstate key nonce ctr =>
    key.length = klen p ∧ nonce.length = nlen p ∧ Carries p.payload 0 key ∧ Carries p.payload (ceil4 (klen p)) nonce ∧
      p.payload[ceil4 (klen p) + ceil4 (nlen p)]? = some ctr
  | .getctr => True
  | .setctr value => p.payload[0]? = some value
  | .xform buf => p.payload[0]?.map BitVec.toNat = some buf.length ∧ Carries p.payload 1 buf
  | .xformr buf start length =>
    p.payload[0]?.map BitVec.toNat = some buf.length ∧ p.payload[1]? = some start ∧ p.payload[2]? = some length ∧
      Carries p.payload 3 buf
  | .xformc src dsize start length =>
    p.payload[0]?.map BitVec.toNat = some src.length ∧ p.payload[1]? = some dsize ∧ p.payload[2]? = some start ∧
      p.payload[3]? = some length ∧ Carries p.payload 4 src

/-- The status code of a decoded command on an instance whose INIT is `init`: the first error of 60_exceptions.md rule R206 that it meets,
or 0 for OK. -/
def statusCode (init : Bool) : Instr → Nat
  | .setstate key nonce _ => if key.length ≠ 32 ∨ nonce.length ≠ 12 then 1 else 0
  | .getctr => if init = false then 5 else 0
  | .setctr _ => if init = false then 5 else 0
  | .xform _ => if init = false then 5 else 0
  | .xformr buf start length =>
    if init = false then 5 else if start.toNat + length.toNat > buf.length then 3 else 0
  | .xformc src dsize start length =>
    if init = false then 5 else if src.length ≠ dsize.toNat then 2
    else if start.toNat + length.toNat > dsize.toNat then 3 else 0

/-- What an instance's events since its reset come to, as 10_state.md rule R32 counts them: the words the last successful SETSTATE packed, and
the carries since. It stands beside the machine and is no part of it. -/
structure History where
  packed  : Option (Vector Word 16)
  carries : Nat

/-- How many bytes a command transforms on an instance whose INIT is `init`; 0 if it is no transform or ends with an error. -/
def transformed (init : Bool) (i : Instr) : Nat :=
  if statusCode init i ≠ 0 then 0
  else match i with
    | .setstate .. => 0
    | .getctr => 0
    | .setctr _ => 0
    | .xform buf => buf.length
    | .xformr _ _ length => length.toNat
    | .xformc _ _ _ length => length.toNat

/-- The history after one more event, `c` being the instance before it. -/
def History.after (h : History) (c : Instance) : HostEvent → History
  | .reset => ⟨none, 0⟩
  | .resetDuring _ => ⟨none, 0⟩
  | .command p =>
    match decode p with
    | .error _ => h
    | .ok (.setstate key nonce ctr) =>
      if key.length = 32 ∧ nonce.length = 12 then ⟨some (pack key nonce ctr), 0⟩ else h
    | .ok i => ⟨h.packed, h.carries + Spec.carries c (transformed c.init i)⟩

/-- Rule R32's invariant of an instance against its history. -/
def Tracks (c : Instance) (h : History) : Prop :=
  (c.init = true ↔ h.packed.isSome) ∧
  ∀ W, h.packed = some W →
    c.words[0] = 0x61707865 ∧ c.words[1] = 0x3320646e ∧ c.words[2] = 0x79622d32 ∧ c.words[3] = 0x6b206574 ∧
    (∀ i : Fin 16, 4 ≤ i.val → i.val ≤ 11 → c.words[i] = W[i]) ∧
    c.words[14] = W[14] ∧ c.words[15] = W[15] ∧
    c.words[13] = W[13] + BitVec.ofNat 32 h.carries

end Sys2Proof.Spec
end

