-- ==== Sys2Proof/Certificates/Slice0/Obligations.lean ====
section
/-! DEFINITION. The statements for the provers: what the spec's numbered rules say the machine does, as statements about this model. Each docstring names
the rule. -/

open Sys2Proof Sys2Proof.Machine Sys2Proof.Spec

/-! ### Reset and the hardwired words -/

/-- 10_state.md rule R31, less the words it gives no value: after reset every instance has INIT = 0 and the constant words, no command is in progress and no
response was sent; there are N_INST instances, at least one (60_exceptions.md rule R220). Nothing is said of `S[4..15]`: their zeros are the model's choice
(log entry 1). -/
def Obligations.ResetClearsInitAndHoldsConstants : Prop :=
  State.reset.inbox = [] ∧ State.reset.instances.length = Config.nInst ∧ 1 ≤ Config.nInst ∧
  ∀ c ∈ State.reset.instances, c.init = false ∧ c.responses = [] ∧
    c.words[0] = 0x61707865 ∧ c.words[1] = 0x3320646e ∧ c.words[2] = 0x79622d32 ∧ c.words[3] = 0x6b206574

/-- Rule R21: `S[0..3]` read as the constants in every instance, whatever a SETSTATE stores. -/
def Obligations.ConstantWordsAreHardwired : Prop :=
  ∀ (c : Instance) (W : Vector Word 16), ∀ d ∈ [c, c.storeWords W],
    d.words[0] = 0x61707865 ∧ d.words[1] = 0x3320646e ∧ d.words[2] = 0x79622d32 ∧ d.words[3] = 0x6b206574

/-! ### The step -/

/-- A step runs the decoded command: a packet that decodes to `i` at the inbox's head makes `step` be `exec i`; presented by
`withFetchWord`, a word of the opcode table is that packet. `exec` itself retires the head (statement EveryCommandIsAnsweredOnce). -/
def Obligations.StepRunsTheDecodedCommand : Prop :=
  (∀ (s : State) (port : Nat) (p : Packet) (rest : List Arrival) (i : Instr),
    s.inbox = ⟨port, .command p⟩ :: rest → decode p = .ok i → step s = exec i s) ∧
  ∀ (s : State) (nbits w : Nat) (i : Instr), decodeTableWord nbits w = some i →
    step (s.withFetchWord nbits w) = exec i (s.withFetchWord nbits w)

/-- 70_reset_and_hazards.md rule R232: with nothing presented the CORE waits, its state unchanged. -/
def Obligations.CoreWaitsWithNothingPresented : Prop :=
  ∀ s : State, s.inbox = [] → step s = .next s

/-- 60_exceptions.md rule R218: every accepted command completes. From a state a host can bring about a step answers a next state, the event at the inbox's
head is served and the others wait in their order, and that state is again such a state. -/
def Obligations.EveryAcceptedEventCompletes : Prop :=
  ∀ (s : State) (a : Arrival) (rest : List Arrival), s.PortsExist → s.inbox = a :: rest →
    ∃ t, step s = .next t ∧ t.inbox = rest ∧ t.instances.length = s.instances.length ∧ t.PortsExist

/-- 30_encoding.md rule R74, its first sentence, with rule R47: every command gets exactly one response packet, put on its own instance's response port, and no other
instance is touched. -/
def Obligations.EveryCommandIsAnsweredOnce : Prop :=
  ∀ (i : Instr) (s : State) (port : Nat) (c : Instance), s.Executing port c →
    ∃ (t : State) (c' : Instance) (q : Packet), exec i s = .next t ∧ t.inbox = s.inbox.tail ∧
      t.instances[port]? = some c' ∧ c'.responses = c.responses ++ [q] ∧ c'.draws = c.draws ∧
      t.instances.length = s.instances.length ∧ ∀ k, k ≠ port → t.instances[k]? = s.instances[k]?

/-- The model's only stop: a command is executed unless there is no instance to execute it, which no host can bring about (rule R220; log entry 3). -/
def Obligations.ExecStopsOnlyWithoutAnInstance : Prop :=
  ∀ (i : Instr) (s : State),
    exec i s = .fault .noExecutingInstance ↔ ¬ ∃ port c, s.Executing port c

/-- The invariant holds at reset. -/
def Obligations.ResetIsSafe : Prop := State.reset.Inv

/-- Rules R74 and R200 as an invariant: every step keeps it that each response sent carries a code from 0 to 5 and zeros above it, alone unless it is OK; that
every arrival has an instance; and that there is one. -/
def Obligations.EveryStepKeepsTheSystemSafe : Prop :=
  ∀ s t : State, s.Inv → step s = .next t → t.Inv

/-! ### Encoding -/

/-- Decode and encode agree: every well-formed command, at every operand value, is read back from its packet. -/
def Obligations.DecodeEncodeRoundTrip : Prop :=
  ∀ i : Instr, i.wf = true → decode (encode i) = .ok i

/-- Rules R61 to R72: the operands of a decoded command are the fields of its packet, bit for bit, and the command is well formed. -/
def Obligations.DecodedOperandsAreThePacketsFields : Prop :=
  ∀ (p : Packet) (i : Instr), decode p = .ok i → i.wf = true ∧ OperandsOf p i

/-- Rule R62: OPC selects the command, and the other values are reserved. The name `reservedOpcode` of that refusal is the model's choice (log entry 10). -/
def Obligations.OpcSelectsTheCommand : Prop :=
  ∀ p : Packet,
    (opc p = 0 ∨ 7 ≤ opc p → decode p = .error .reservedOpcode) ∧
    ∀ i, decode p = .ok i →
      match i with
      | .setstate _ _ _ => opc p = 1
      | .getctr => opc p = 2
      | .setctr _ => opc p = 3
      | .xform _ => opc p = 4
      | .xformr _ _ _ => opc p = 5
      | .xformc _ _ _ _ => opc p = 6

/-- 60_exceptions.md rule R204: exactly the packets of rule R75 decode to no command, and such a packet is answered ILLEGAL_COMMAND with no effect. -/
def Obligations.IllegalPacketsAreAnsweredAndHaveNoEffect : Prop :=
  ∀ p : Packet,
    ((∃ r, decode p = .error r) ↔ IllegalPacket p) ∧
    ∀ (s : State) (port : Nat) (rest : List Arrival) (c : Instance), IllegalPacket p →
      s.inbox = ⟨port, .command p⟩ :: rest → s.instances[port]? = some c →
      step s = .next
        { instances := s.instances.set port { c with responses := c.responses ++ [⟨0x00000004, []⟩] }, inbox := rest }

/-- Rule R63: a region of the bytes `B` has `ceil(n/4)` words, byte `B[i]` in word `i div 4` at bits `[8*(i mod 4)+7 : 8*(i mod 4)]`, its pad bytes zero as a response
sends them; and the CORE reads the `n` bytes of a region whatever its pad bytes hold. -/
def Obligations.RegionsPackBytesLittleEndian : Prop :=
  (∀ B : List Byte, (regionWords B).length = ceil4 B.length ∧ Carries (regionWords B) 0 B ∧
    ∀ i w, B.length ≤ i → (regionWords B)[i / 4]? = some w → w.extractLsb' (8 * (i % 4)) 8 = 0#8) ∧
  ∀ (n : Nat) (ws : List Word), ws.length = ceil4 n →
    (regionBytes n ws).length = n ∧ Carries ws 0 (regionBytes n ws)

/-- Rule R79's worked encodings, written out word for word, are encoded and decoded so. -/
def Obligations.WorkedEncodingsOfTheSpec : Prop :=
  let key : List Byte := (List.range 32).map (BitVec.ofNat 8)
  let setstate : Instr := .setstate key [0, 0, 0, 9, 0, 0, 0, 0x4a, 0, 0, 0, 0] 1
  let setstatePacket : Packet := ⟨0x000C2001,
    [0x03020100, 0x07060504, 0x0B0A0908, 0x0F0E0D0C, 0x13121110, 0x17161514, 0x1B1A1918, 0x1F1E1D1C,
      0x09000000, 0x4A000000, 0x00000000, 0x00000001]⟩
  let xform : Instr := .xform (List.replicate 64 0)
  let xformPacket : Packet := ⟨0x00000004, 0x00000040 :: List.replicate 16 0x00000000⟩
  encode setstate = setstatePacket ∧ decode setstatePacket = .ok setstate ∧
  encode xform = xformPacket ∧ decode xformPacket = .ok xform ∧
  encode .getctr = ⟨0x00000002, []⟩ ∧ decode ⟨0x00000002, []⟩ = .ok .getctr

/-! ### Errors -/

/-- 60_exceptions.md rule R205: a packet answered with any status but OK, undecodable ones among them, leaves its instance as it was but for the response, which is the status word
alone; so the next command sees the state from before it. No other instance is touched. -/
def Obligations.ErrorsHaveNoEffect : Prop :=
  ∀ (p : Packet) (s t : State) (port : Nat) (rest : List Arrival) (c c' : Instance) (q : Packet),
    s.inbox = ⟨port, .command p⟩ :: rest → s.instances[port]? = some c → step s = .next t →
    t.instances[port]? = some c' → c'.responses = c.responses ++ [q] → q.header ≠ 0 →
    q.payload = [] ∧ t = { instances := s.instances.set port { c with responses := c.responses ++ [q] }, inbox := rest }

/-- Rule R206 with rules R201 to R203, R207 and R200: the status code of every command is that of the first error, in the rule's order, that it meets, and OK if it meets none. -/
def Obligations.StatusIsTheFirstErrorInPriority : Prop :=
  (∀ (i : Instr) (s : State) (port : Nat) (c : Instance), s.Executing port c →
    ∃ t q, exec i s = .next t ∧ t.lastResponse port = some q ∧ q.header.toNat = statusCode c.init i) ∧
  ∀ (p : Packet) (s : State) (port : Nat) (c : Instance) (rest : List Arrival), IllegalPacket p →
    s.inbox = ⟨port, .command p⟩ :: rest → s.instances[port]? = some c →
    ∃ t q, step s = .next t ∧ t.lastResponse port = some q ∧ q.header.toNat = 4

/-- Rule R201: GETCTR, SETCTR, XFORM, XFORMR and XFORMC answer NOT_INITIALISED, and nothing else changes, when INIT = 0; SETSTATE never answers it. -/
def Obligations.UninitialisedInstanceAnswersNotInitialised : Prop :=
  ∀ (i : Instr) (s : State) (port : Nat) (c : Instance), s.Executing port c →
    match i with
    | .setstate _ _ _ => ∀ t, exec i s = .next t → t.lastResponse port ≠ some ⟨0x00000005, []⟩
    | _ => c.init = false → exec i s = .next
        { instances := s.instances.set port { c with responses := c.responses ++ [⟨0x00000005, []⟩] }, inbox := s.inbox.tail }

/-- Rule R202: SETSTATE answers INVALID_ARGUMENT, and nothing else changes, when KLEN is not 32 or NLEN is not 12. -/
def Obligations.SetstateRejectsWrongLengths : Prop :=
  ∀ (key nonce : List Byte) (ctr : Word) (s : State) (port : Nat) (c : Instance), s.Executing port c →
    key.length ≠ 32 ∨ nonce.length ≠ 12 →
    exec (.setstate key nonce ctr) s = .next
      { instances := s.instances.set port { c with responses := c.responses ++ [⟨0x00000001, []⟩] }, inbox := s.inbox.tail }

/-- Rule R203: XFORMC answers SIZE_MISMATCH, and nothing else changes, when SSIZE and DSIZE differ, whatever its range (rule R206). -/
def Obligations.XformcRejectsSizeMismatch : Prop :=
  ∀ (src : List Byte) (dsize start length : Word) (s : State) (port : Nat) (c : Instance), s.Executing port c →
    c.init = true → src.length ≠ dsize.toNat →
    exec (.xformc src dsize start length) s = .next
      { instances := s.instances.set port { c with responses := c.responses ++ [⟨0x00000002, []⟩] }, inbox := s.inbox.tail }

/-- Rule R207 with 20_memory.md rule R45: XFORMR and XFORMC answer RANGE_VIOLATION, and nothing else changes, when start + length, not wrapped, exceeds the size. -/
def Obligations.RangeViolationsAreRejected : Prop :=
  ∀ (B : List Byte) (start length : Word) (s : State) (port : Nat) (c : Instance), s.Executing port c → c.init = true →
    (start.toNat + length.toNat > B.length →
      exec (.xformr B start length) s = .next
        { instances := s.instances.set port { c with responses := c.responses ++ [⟨0x00000003, []⟩] }, inbox := s.inbox.tail }) ∧
    ∀ dsize : Word, B.length = dsize.toNat → start.toNat + length.toNat > dsize.toNat →
      exec (.xformc B dsize start length) s = .next
        { instances := s.instances.set port { c with responses := c.responses ++ [⟨0x00000003, []⟩] }, inbox := s.inbox.tail }

/-! ### State builder and counter accessors -/

/-- 41_state_builder.md rule R100: the layout of `pack`. -/
def Obligations.PackLaysOutKeyCounterAndNonce : Prop :=
  ∀ (key nonce : List Byte) (ctr : Word), key.length = 32 → nonce.length = 12 →
    let W := pack key nonce ctr
    W[0] = 0x61707865 ∧ W[1] = 0x3320646e ∧ W[2] = 0x79622d32 ∧ W[3] = 0x6b206574 ∧ W[12] = ctr ∧
    (∀ i k : Fin 32, i.val < 8 → k.val < 4 →
      key[4 * i.val + k.val]? = (W[4 + i.val]?).map fun w => w.extractLsb' (8 * k.val) 8) ∧
    ∀ j k : Fin 32, j.val < 3 → k.val < 4 →
      nonce[4 * j.val + k.val]? = (W[13 + j.val]?).map fun w => w.extractLsb' (8 * k.val) 8

/-- Rule R101: `pack` is injective in its three operands. -/
def Obligations.PackIsInjective : Prop :=
  ∀ (key key' nonce nonce' : List Byte) (ctr ctr' : Word),
    key.length = 32 → key'.length = 32 → nonce.length = 12 → nonce'.length = 12 →
    pack key nonce ctr = pack key' nonce' ctr' → key = key' ∧ nonce = nonce' ∧ ctr = ctr'

/-- Rule R102: SETSTATE with a 32-byte key and a 12-byte nonce completes on every instance, initialised or not: OK with no payload, `S[0..15]` = `pack` of its
operands, INIT = 1, and nothing else changed. -/
def Obligations.SetstateLoadsTheWorkingState : Prop :=
  ∀ (key nonce : List Byte) (ctr : Word) (s : State) (port : Nat) (c : Instance), s.Executing port c →
    key.length = 32 → nonce.length = 12 →
    ∃ c', exec (.setstate key nonce ctr) s = .next { instances := s.instances.set port c', inbox := s.inbox.tail } ∧
      c'.words = pack key nonce ctr ∧ c'.init = true ∧ c'.responses = c.responses ++ [⟨0x00000000, []⟩] ∧ c'.draws = c.draws

/-- Rule R103: after a successful SETSTATE two instances that were in any two states agree in Working State and INIT. -/
def Obligations.ReinitialisationIsComplete : Prop :=
  ∀ (key nonce : List Byte) (ctr : Word) (s s' t t' : State) (port port' : Nat) (c c' d d' : Instance),
    s.Executing port c → s'.Executing port' c' → key.length = 32 → nonce.length = 12 →
    exec (.setstate key nonce ctr) s = .next t → exec (.setstate key nonce ctr) s' = .next t' →
    t.instances[port]? = some d → t'.instances[port']? = some d' → d.words = d'.words ∧ d.init = d'.init

/-- Rule R104: GETCTR on an initialised instance completes with OK and `S[12]`, and nothing else changed. -/
def Obligations.GetctrReturnsTheCounter : Prop :=
  ∀ (s : State) (port : Nat) (c : Instance), s.Executing port c → c.init = true →
    exec .getctr s = .next
      { instances := s.instances.set port { c with responses := c.responses ++ [⟨0x00000000, [c.words[12]]⟩] }, inbox := s.inbox.tail }

/-- Rule R106: SETCTR on an initialised instance completes with OK; `S[12]` is the value, and key and nonce words are untouched: a carry made before is not undone (rule R107). -/
def Obligations.SetctrWritesTheCounterAlone : Prop :=
  ∀ (value : Word) (s : State) (port : Nat) (c : Instance), s.Executing port c → c.init = true →
    exec (.setctr value) s = .next
      { instances := s.instances.set port { c with ctr := value, responses := c.responses ++ [⟨0x00000000, []⟩] }, inbox := s.inbox.tail }

/-- 20_memory.md rule R46: after SETCTR or SETSTATE a second one with the same operands changes neither Working State nor INIT, and GETCTR never does. -/
def Obligations.CounterAndStateCommandsAreIdempotent : Prop :=
  ∀ (i : Instr), (match i with | .setstate _ _ _ => True | .getctr => True | .setctr _ => True | _ => False) →
  ∀ (s t u : State) (port : Nat) (c d e : Instance), s.Executing port c → exec i s = .next t → t.Executing port d →
    exec i t = .next u → u.instances[port]? = some e →
    e.words = d.words ∧ e.init = d.init ∧ (i = .getctr → d.words = c.words ∧ d.init = c.init)

/-- Frame of GETCTR and SETCTR (rules R26, R104 and R106), OK or not: key, nonce, INIT and the responses already sent are unchanged, and the counter too unless SETCTR writes it;
no other instance is touched. -/
def Obligations.CounterCommandsFrame : Prop :=
  ∀ (i : Instr), (i = .getctr ∨ ∃ v, i = .setctr v) → ∀ (s t : State) (port : Nat) (c : Instance), s.Executing port c →
    exec i s = .next t → ∃ c' q, t = { instances := s.instances.set port c', inbox := s.inbox.tail } ∧
      c'.key = c.key ∧ c'.nonce = c.nonce ∧ c'.init = c.init ∧ c'.draws = c.draws ∧ c'.responses = c.responses ++ [q] ∧
      (i = .getctr → c'.ctr = c.ctr)

/-- Frame of SETSTATE (rules R26 and R102), OK or not: `S[0..3]` and the responses already sent are unchanged, no other instance is touched, and INIT is never cleared. -/
def Obligations.SetstateFrame : Prop :=
  ∀ (key nonce : List Byte) (ctr : Word) (s t : State) (port : Nat) (c : Instance), s.Executing port c →
    exec (.setstate key nonce ctr) s = .next t → ∃ c' q, t = { instances := s.instances.set port c', inbox := s.inbox.tail } ∧
      (∀ i : Fin 16, i.val < 4 → c'.words[i] = c.words[i]) ∧ (c.init = true → c'.init = true) ∧ c'.draws = c.draws ∧
      c'.responses = c.responses ++ [q]

/-- Rules R22 and R24, for the commands that are no transforms: their response is the same whatever key and nonce the instance holds. -/
def Obligations.NonTransformResponsesDoNotDependOnKeyOrNonce : Prop :=
  ∀ (i : Instr), (match i with | .setstate _ _ _ => True | .getctr => True | .setctr _ => True | _ => False) →
  ∀ (s s' : State) (port : Nat) (c c' : Instance), s.Executing port c → s'.Executing port c' → c.init = c'.init → c.ctr = c'.ctr →
    ∃ t t' q, exec i s = .next t ∧ exec i s' = .next t' ∧ t.lastResponse port = some q ∧ t'.lastResponse port = some q

/-! ### Block function -/

/-- 00_scope.md rule R5: bit `i` of `rotl(x, n)` is bit `(i - n) mod 32` of `x`. -/
def Obligations.RotlMovesEveryBit : Prop :=
  ∀ (x : Word) (n i : Nat), 0 < n → n < 32 → i < 32 → (rotl x n).getLsbD i = x.getLsbD ((i + 32 - n) % 32)

/-- 42_block_function.md rule R120, its example and corner cases. -/
def Obligations.QuarterRoundExamples : Prop :=
  quarterRound 0x11111111 0x01020304 0x9b8d6f43 0x01234567 = (0xea2a92f4, 0xcb1cf8ce, 0x4581472e, 0x5881c4bb) ∧
  quarterRound 0 0 0 0 = (0, 0, 0, 0) ∧
  quarterRound 0xFFFFFFFF 0xFFFFFFFF 0xFFFFFFFF 0xFFFFFFFF = (0xf0000ffd, 0x88790878, 0x0110fdef, 0x010ffdf0)

/-- Rule R121: the quarter-round is a bijection on four-word tuples, and so the permutation is one on 16-word states: what the block function loses, the final addition loses. -/
def Obligations.QuarterRoundAndPermutationAreBijections : Prop :=
  Function.Bijective (fun x : Word × Word × Word × Word => quarterRound x.1 x.2.1 x.2.2.1 x.2.2.2) ∧
  Function.Bijective perm

/-- Rule R122: QRX puts the quarter-round of four words in their places, and only those four words change. -/
def Obligations.QrxTouchesOnlyItsFourWords : Prop :=
  ∀ (X : Vector Word 16) (i j k l : Fin 16), [i, j, k, l].Nodup →
    (let Y := qrx X i j k l; (Y[i], Y[j], Y[k], Y[l]) = quarterRound X[i] X[j] X[k] X[l]) ∧
    ∀ m : Fin 16, m ∉ [i, j, k, l] → (qrx X i j k l)[m] = X[m]

/-- Rule R127: the four quarter-rounds of a column round, or of a diagonal round, give the same result in any order. -/
def Obligations.LanesOfARoundCommute : Prop :=
  let lane (X : Vector Word 16) (q : Fin 16 × Fin 16 × Fin 16 × Fin 16) := qrx X q.1 q.2.1 q.2.2.1 q.2.2.2
  ∀ (X : Vector Word 16) (qs : List (Fin 16 × Fin 16 × Fin 16 × Fin 16)),
    (qs.Perm [(0, 4, 8, 12), (1, 5, 9, 13), (2, 6, 10, 14), (3, 7, 11, 15)] → qs.foldl lane X = columnRound X) ∧
    (qs.Perm [(0, 5, 10, 15), (1, 6, 11, 12), (2, 7, 8, 13), (3, 4, 9, 14)] → qs.foldl lane X = diagonalRound X)

/-- Rule R128: `perm` is ten double rounds, that is, 80 quarter-round applications, each double round the column round's four (rule R124) and then the diagonal round's (rule R125). -/
def Obligations.PermutationIsEightyQuarterRounds : Prop :=
  let lane (X : Vector Word 16) (q : Fin 16 × Fin 16 × Fin 16 × Fin 16) := qrx X q.1 q.2.1 q.2.2.1 q.2.2.2
  let quads : List (Fin 16 × Fin 16 × Fin 16 × Fin 16) := (List.replicate 10
    [(0, 4, 8, 12), (1, 5, 9, 13), (2, 6, 10, 14), (3, 7, 11, 15), (0, 5, 10, 15), (1, 6, 11, 12), (2, 7, 8, 13), (3, 4, 9, 14)]).flatten
  quads.length = 80 ∧ ∀ X, perm X = doubleRound^[10] X ∧ perm X = quads.foldl lane X

/-- Rules R129 and R130: a block has 64 bytes, and byte `4i + k` is bits `[8k+7 : 8k]` of the permuted word `i` plus the original word `i`, mod 2^32. -/
def Obligations.BlockIsThePermutationPlusTheState : Prop :=
  ∀ S : Vector Word 16, (block S).length = 64 ∧
    ∀ (i : Fin 16) (k : Nat), k < 4 →
      (block S)[4 * i.val + k]? = some (((perm S)[i] + S[i]).extractLsb' (8 * k) 8)

/-- Rule R130's corner case: the all-zero input gives the all-zero block. -/
def Obligations.ZeroStateGivesTheZeroBlock : Prop :=
  perm (Vector.replicate 16 0) = Vector.replicate 16 0 ∧ block (Vector.replicate 16 0) = List.replicate 64 0

/-! ### Counter sequencer -/

/-- 43_counter_sequencer.md rule R150, its corner cases: the counter goes up by 1 mod 2^32; `S[13]` goes up by 1 mod 2^32 exactly when the counter wraps; nothing else changes. -/
def Obligations.AdvanceCarriesIntoTheFirstNonceWord : Prop :=
  ∀ c : Instance, (advance c).ctr = c.ctr + 1 ∧
    (advance c).nonce[0] = (if c.ctr = 0xFFFFFFFF#32 then c.nonce[0] + 1 else c.nonce[0]) ∧
    (advance c).nonce[1] = c.nonce[1] ∧ (advance c).nonce[2] = c.nonce[2] ∧ (advance c).key = c.key ∧
    (advance c).init = c.init ∧ (advance c).responses = c.responses ∧ (advance c).draws = c.draws

/-- Rules R151 and R152: whatever the range, a transform of `length` bytes advances exactly `ceil(length/64)` times. -/
def Obligations.TransformAdvancesOncePerBlock : Prop :=
  ∀ (c : Instance) (B : List Byte) (start length : Nat),
    (xorRange c B start length).1 = advance^[blocks length] c

/-- Rule R153: one advance adds 1 to `V = S[13] * 2^32 + S[12]` mod 2^64 and a transform of `length` bytes adds `ceil(length/64)`; `S[14]` and `S[15]` stay. -/
def Obligations.CounterPairIsA64BitCounter : Prop :=
  ∀ c : Instance,
    (counter64 (advance c) = (counter64 c + 1) % 2 ^ 64 ∧ (advance c).nonce[1] = c.nonce[1] ∧ (advance c).nonce[2] = c.nonce[2]) ∧
    ∀ (B : List Byte) (start length : Nat), let c' := (xorRange c B start length).1
      counter64 c' = (counter64 c + blocks length) % 2 ^ 64 ∧ c'.nonce[1] = c.nonce[1] ∧ c'.nonce[2] = c.nonce[2]

/-- 70_reset_and_hazards.md rule R244: the pair wraps after 2^64 blocks, and the keystream repeats from there. -/
def Obligations.KeystreamRepeatsAfterTwoToThe64Blocks : Prop :=
  ∀ c : Instance, advanceBy (2 ^ 64) c = c ∧ ∀ p, keystream c (p + 64 * 2 ^ 64) = keystream c p

/-! ### Transform engine -/

/-- 44_transform.md rule R163: the closed form of `xor_range`. -/
def Obligations.XorRangeClosedForm : Prop :=
  ∀ (c : Instance) (B : List Byte) (start length : Nat), start + length ≤ B.length →
    xorRange c B start length = (advanceBy (blocks length) c, xored c B start length)

/-- Rule R164: XFORM on an initialised instance completes: OK, the whole buffer XOR the keystream, the counter past `ceil(SIZE/64)` blocks, and nothing else changed. -/
def Obligations.XformTransformsTheWholeBuffer : Prop :=
  ∀ (buf : List Byte) (s : State) (port : Nat) (c : Instance), s.Executing port c → c.init = true →
    exec (.xform buf) s = .next
      { instances := s.instances.set port
          { advanceBy (blocks buf.length) c with
            responses := c.responses ++ [⟨0x00000000, regionWords (xored c buf 0 buf.length)⟩] }
        inbox := s.inbox.tail }

/-- Rule R165: XFORMR on an initialised instance, its range inside the buffer, completes: OK, the whole buffer with the range XOR the keystream from its byte 0, and the counter
past `ceil(length/64)` blocks. -/
def Obligations.XformrTransformsTheRange : Prop :=
  ∀ (buf : List Byte) (start length : Word) (s : State) (port : Nat) (c : Instance), s.Executing port c → c.init = true →
    start.toNat + length.toNat ≤ buf.length →
    exec (.xformr buf start length) s = .next
      { instances := s.instances.set port
          { advanceBy (blocks length.toNat) c with
            responses := c.responses ++ [⟨0x00000000, regionWords (xored c buf start.toNat length.toNat)⟩] }
        inbox := s.inbox.tail }

/-- Rule R168: XFORMC on an initialised instance, its sizes equal and its range inside them, completes: OK, the source copied and then its range transformed. -/
def Obligations.XformcCopiesThenTransformsTheRange : Prop :=
  ∀ (src : List Byte) (dsize start length : Word) (s : State) (port : Nat) (c : Instance), s.Executing port c → c.init = true →
    src.length = dsize.toNat → start.toNat + length.toNat ≤ dsize.toNat →
    exec (.xformc src dsize start length) s = .next
      { instances := s.instances.set port
          { advanceBy (blocks length.toNat) c with
            responses := c.responses ++ [⟨0x00000000, regionWords (xored c src start.toNat length.toNat)⟩] }
        inbox := s.inbox.tail }

/-- Rule R78: XFORM is XFORMR with start 0 and length the buffer's, and XFORMC with equal sizes is XFORMR of its source. -/
def Obligations.TransformFormsAgree : Prop :=
  ∀ (B : List Byte) (start length : Word) (s : State), B.length ≤ Config.maxBuf →
    exec (.xform B) s = exec (.xformr B 0 (BitVec.ofNat 32 B.length)) s ∧
    exec (.xformc B (BitVec.ofNat 32 B.length) start length) s = exec (.xformr B start length) s

/-- Frame of XFORM, XFORMR and XFORMC (rules R173 and R26), OK or not: `S[0..11]`, `S[14]`, `S[15]`, INIT and the responses already sent are unchanged; `S[13]` changes only by carries;
no other instance is touched. -/
def Obligations.TransformsFrame : Prop :=
  ∀ (i : Instr), (match i with | .xform _ => True | .xformr _ _ _ => True | .xformc _ _ _ _ => True | _ => False) →
  ∀ (s t : State) (port : Nat) (c : Instance), s.Executing port c → exec i s = .next t →
    ∃ c' q, t = { instances := s.instances.set port c', inbox := s.inbox.tail } ∧
      (∀ k : Fin 16, k.val < 12 ∨ 14 ≤ k.val → c'.words[k] = c.words[k]) ∧
      c'.words[13] = c.words[13] + BitVec.ofNat 32 (Spec.carries c (transformed c.init i)) ∧
      c'.init = c.init ∧ c'.draws = c.draws ∧ c'.responses = c.responses ++ [q]

/-- The buffers' frame (rules R162 and R168): of the buffer an OK transform returns, every byte outside the range is the byte the host sent (for XFORMC, the source's), and the
buffer has the same length. -/
def Obligations.BytesOutsideTheRangeAreReturnedUnchanged : Prop :=
  ∀ (B : List Byte) (dsize start length : Word) (i : Instr), (i = .xformr B start length ∨ i = .xformc B dsize start length) →
  ∀ (s t : State) (port : Nat) (c : Instance) (q : Packet), s.Executing port c → exec i s = .next t →
    t.lastResponse port = some q → q.header = 0 →
    q.payload.length = ceil4 B.length ∧ (regionBytes B.length q.payload).length = B.length ∧
    ∀ k, k < start.toNat ∨ start.toNat + length.toNat ≤ k → (regionBytes B.length q.payload)[k]? = B[k]?

/-- Rule R171: applying the same transform form, with the same range, to its result from an equal state gives the buffer back. -/
def Obligations.TransformingTwiceRestoresTheBuffer : Prop :=
  ∀ (form : List Byte → Instr) (B : List Byte),
    (form = (fun b => .xform b) ∨ (∃ start length, form = fun b => .xformr b start length) ∨
      (∃ dsize start length, form = fun b => .xformc b dsize start length)) →
  ∀ (s s' t : State) (port port' : Nat) (c c' : Instance) (q : Packet), s.Executing port c → s'.Executing port' c' →
    c.words = c'.words → c.init = c'.init → exec (form B) s = .next t → t.lastResponse port = some q → q.header = 0 →
    ∃ t', exec (form (regionBytes B.length q.payload)) s' = .next t' ∧
      t'.lastResponse port' = some ⟨0x00000000, regionWords B⟩

/-- Rule R166: transforming `[0, a)` and then `[a, a+b)` in two commands. Byte `a + p` of the split run uses keystream byte `64*ceil(a/64) + p`; and when `a` is a multiple of 64, or
`b` is 0, the two commands do what one command on `[0, a+b)` does. -/
def Obligations.SplitRunsFollowTheCounterNotTheBuffer : Prop :=
  ∀ (c : Instance) (B : List Byte) (a b : Nat), a + b ≤ B.length →
    let first := xorRange c B 0 a
    let second := xorRange first.1 first.2 a b
    second.2 = (B.mapIdx fun q x =>
      if q < a then x ^^^ keystream c q else if q < a + b then x ^^^ keystream c (64 * blocks a + (q - a)) else x) ∧
    (64 ∣ a ∨ b = 0 → second = xorRange c B 0 (a + b))

/-! ### Reset of a running system, boot, instances -/

/-- 70_reset_and_hazards.md rules R230 and R231: a reset, between commands or during one, leaves its instance with INIT = 0 and the constants, sends no response, and touches no other
instance. What `S[4..15]` then hold is a free value, of which nothing is said (log entry 4). -/
def Obligations.ResetEventClearsInitAndSendsNothing : Prop :=
  ∀ (s : State) (a : Arrival) (rest : List Arrival) (c : Instance), s.inbox = a :: rest → s.instances[a.port]? = some c →
    (a.event = .reset ∨ ∃ p, a.event = .resetDuring p) →
    ∃ c', step s = .next { instances := s.instances.set a.port c', inbox := rest } ∧ c'.init = false ∧ c'.responses = c.responses ∧
      c'.words[0] = 0x61707865 ∧ c'.words[1] = 0x3320646e ∧ c'.words[2] = 0x79622d32 ∧ c'.words[3] = 0x6b206574

/-- Rule R233: a command on an instance with INIT = 0 is answered OK only if it is a SETSTATE with KLEN = 32 and NLEN = 12, which sets INIT; any other leaves INIT = 0. -/
def Obligations.OnlySetstateBootsAnInstance : Prop :=
  ∀ (s t : State) (port : Nat) (p : Packet) (rest : List Arrival) (c c' : Instance), s.inbox = ⟨port, .command p⟩ :: rest →
    s.instances[port]? = some c → c.init = false → step s = .next t → t.instances[port]? = some c' →
    ∃ q, c'.responses = c.responses ++ [q] ∧
      (q.header = 0 ↔ ∃ key nonce ctr, decode p = .ok (.setstate key nonce ctr) ∧ key.length = 32 ∧ nonce.length = 12) ∧
      (q.header = 0 ↔ c'.init = true)

/-- The history of a freshly reset instance: nothing packed, no carry. -/
def Obligations.ResetInstancesTrackTheEmptyHistory : Prop :=
  ∀ c ∈ State.reset.instances, Tracks c ⟨none, 0⟩

/-- 10_state.md rule R32: with INIT = 1, `S[0..3]` are the constants, `S[4..11]`, `S[14]` and `S[15]` are the words the last successful SETSTATE packed, and `S[13]` is the packed N0 plus
the carries since, mod 2^32. Every event keeps this, on the instance it arrives at and on all others. -/
def Obligations.EveryStepKeepsTheKeyNonceInvariant : Prop :=
  ∀ (s t : State) (a : Arrival) (rest : List Arrival) (c c' : Instance) (h : History), s.inbox = a :: rest → step s = .next t →
    s.instances[a.port]? = some c → t.instances[a.port]? = some c' → Tracks c h →
    Tracks c' (h.after c a.event) ∧ ∀ k, k ≠ a.port → t.instances[k]? = s.instances[k]?

/-- 20_memory.md rule R49: any two orders of the same events, the order on each single port kept, bring the system to the same state, and so give each instance the same sequence of
responses. That the end states agree in `S[4..15]` too, where a reset draws them, rests on the model's count of draws per instance (log entry 4). -/
def Obligations.AnyInterleavingGivesTheSameResponses : Prop :=
  ∀ (instances : List Instance) (inbox inbox' : List Arrival), (∀ a ∈ inbox, a.port < instances.length) →
    (∀ port, inbox.filter (fun a => a.port = port) = inbox'.filter (fun a => a.port = port)) →
    ∃ u : State, Sys2Proof.core.run inbox.length (⟨instances, inbox⟩ : State) = .next u ∧
      Sys2Proof.core.run inbox'.length (⟨instances, inbox'⟩ : State) = .next u

/-- 60_exceptions.md rule R221: two instances given the same command sequence from equal Working State and INIT give equal responses. -/
def Obligations.EqualInstancesAnswerEqually : Prop :=
  ∀ (ps : List Packet) (instances instances' : List Instance) (port port' : Nat) (c c' : Instance),
    instances[port]? = some c → instances'[port']? = some c' → c.words = c'.words → c.init = c'.init →
    ∃ (u u' : State) (d d' : Instance) (qs : List Packet),
      Sys2Proof.core.run ps.length (⟨instances, ps.map fun p => ⟨port, .command p⟩⟩ : State) = .next u ∧
      Sys2Proof.core.run ps.length (⟨instances', ps.map fun p => ⟨port', .command p⟩⟩ : State) = .next u' ∧
      u.instances[port]? = some d ∧ u'.instances[port']? = some d' ∧
      d.responses = c.responses ++ qs ∧ d'.responses = c'.responses ++ qs ∧ d.words = d'.words ∧ d.init = d'.init

/-- Rule R33: an event at one port, a command or a reset, leaves every other instance as it was. -/
def Obligations.InstancesShareNoState : Prop :=
  ∀ (s t : State) (a : Arrival) (rest : List Arrival), s.inbox = a :: rest → step s = .next t →
    ∀ k, k ≠ a.port → t.instances[k]? = s.instances[k]?

/-- Rule R31, "no command can read the word", and 93_implementation_defined.md U1: systems that differ only in `S[4..15]` of instances with INIT = 0 make the same responses and go on
differing in nothing else. So no claim about responses can rest on a reset value (log entries 1 and 4). -/
def Obligations.NoCommandReadsWordsWithoutAValue : Prop :=
  ∀ s s' : State, s.inbox = s'.inbox → s.PortsExist → List.Forall₂ Instance.AgreeWhereReadable s.instances s'.instances →
    ∃ t t', step s = .next t ∧ step s' = .next t' ∧ t.inbox = t'.inbox ∧
      List.Forall₂ Instance.AgreeWhereReadable t.instances t'.instances
end

