-- ==== Sys2Proof/Laws/State.lean ====
section
/-! SUPPORT. One lemma per field per update of an instance and of the system, all true by unfolding. -/

namespace Sys2Proof.Machine

@[simp] theorem Instance.storeWords_key (c : Instance) (W : Vector Word 16) : (c.storeWords W).key = #v[W[4], W[5], W[6], W[7], W[8], W[9], W[10], W[11]] := rfl
@[simp] theorem Instance.storeWords_ctr (c : Instance) (W : Vector Word 16) : (c.storeWords W).ctr = W[12] := rfl
@[simp] theorem Instance.storeWords_nonce (c : Instance) (W : Vector Word 16) : (c.storeWords W).nonce = #v[W[13], W[14], W[15]] := rfl
@[simp] theorem Instance.storeWords_init (c : Instance) (W : Vector Word 16) : (c.storeWords W).init = c.init := rfl
@[simp] theorem Instance.storeWords_responses (c : Instance) (W : Vector Word 16) : (c.storeWords W).responses = c.responses := rfl
@[simp] theorem Instance.storeWords_draws (c : Instance) (W : Vector Word 16) : (c.storeWords W).draws = c.draws := rfl

@[simp] theorem Instance.setCtr_key (c : Instance) (v : Word) : (c.setCtr v).key = c.key := rfl
@[simp] theorem Instance.setCtr_ctr (c : Instance) (v : Word) : (c.setCtr v).ctr = v := rfl
@[simp] theorem Instance.setCtr_nonce (c : Instance) (v : Word) : (c.setCtr v).nonce = c.nonce := rfl
@[simp] theorem Instance.setCtr_init (c : Instance) (v : Word) : (c.setCtr v).init = c.init := rfl
@[simp] theorem Instance.setCtr_responses (c : Instance) (v : Word) : (c.setCtr v).responses = c.responses := rfl
@[simp] theorem Instance.setCtr_draws (c : Instance) (v : Word) : (c.setCtr v).draws = c.draws := rfl

@[simp] theorem Instance.setInit_key (c : Instance) : (c.setInit).key = c.key := rfl
@[simp] theorem Instance.setInit_ctr (c : Instance) : (c.setInit).ctr = c.ctr := rfl
@[simp] theorem Instance.setInit_nonce (c : Instance) : (c.setInit).nonce = c.nonce := rfl
@[simp] theorem Instance.setInit_init (c : Instance) : (c.setInit).init = true := rfl
@[simp] theorem Instance.setInit_responses (c : Instance) : (c.setInit).responses = c.responses := rfl
@[simp] theorem Instance.setInit_draws (c : Instance) : (c.setInit).draws = c.draws := rfl

@[simp] theorem Instance.clearInit_key (c : Instance) : (c.clearInit).key = c.key := rfl
@[simp] theorem Instance.clearInit_ctr (c : Instance) : (c.clearInit).ctr = c.ctr := rfl
@[simp] theorem Instance.clearInit_nonce (c : Instance) : (c.clearInit).nonce = c.nonce := rfl
@[simp] theorem Instance.clearInit_init (c : Instance) : (c.clearInit).init = false := rfl
@[simp] theorem Instance.clearInit_responses (c : Instance) : (c.clearInit).responses = c.responses := rfl
@[simp] theorem Instance.clearInit_draws (c : Instance) : (c.clearInit).draws = c.draws := rfl

@[simp] theorem Instance.send_key (c : Instance) (q : Packet) : (c.send q).key = c.key := rfl
@[simp] theorem Instance.send_ctr (c : Instance) (q : Packet) : (c.send q).ctr = c.ctr := rfl
@[simp] theorem Instance.send_nonce (c : Instance) (q : Packet) : (c.send q).nonce = c.nonce := rfl
@[simp] theorem Instance.send_init (c : Instance) (q : Packet) : (c.send q).init = c.init := rfl
@[simp] theorem Instance.send_responses (c : Instance) (q : Packet) : (c.send q).responses = c.responses ++ [q] := rfl
@[simp] theorem Instance.send_draws (c : Instance) (q : Packet) : (c.send q).draws = c.draws := rfl

@[simp] theorem Instance.resetOn_init (c : Instance) (port : Nat) : (c.resetOn port).init = false := rfl
@[simp] theorem Instance.resetOn_responses (c : Instance) (port : Nat) : (c.resetOn port).responses = c.responses := rfl
@[simp] theorem Instance.resetOn_draws (c : Instance) (port : Nat) : (c.resetOn port).draws = c.draws + 1 := rfl

@[simp] theorem State.commit_instances (s : State) (port : Nat) (c : Instance) :
    (s.commit port c).instances = s.instances.set port c := rfl
@[simp] theorem State.commit_inbox (s : State) (port : Nat) (c : Instance) : (s.commit port c).inbox = s.inbox.tail := rfl

@[simp] theorem State.withFetchWord_instances (s : State) (nbits w : Nat) :
    (s.withFetchWord nbits w).instances = s.instances := rfl
@[simp] theorem State.withFetchWord_inbox (s : State) (nbits w : Nat) :
    (s.withFetchWord nbits w).inbox = ⟨0, .command (tablePacket nbits w)⟩ :: s.inbox := rfl

/-! ### The Working State, word by word -/

@[simp] theorem Instance.words_key (c : Instance) (i : Nat) (h : i < 8) : c.words[4 + i] = c.key[i] := by
  interval_cases i <;> rfl
@[simp] theorem Instance.words_ctr (c : Instance) : c.words[12] = c.ctr := rfl
@[simp] theorem Instance.words_nonce (c : Instance) (i : Nat) (h : i < 3) : c.words[13 + i] = c.nonce[i] := by
  interval_cases i <;> rfl
@[simp] theorem Instance.words_constants (c : Instance) (i : Nat) (h : i < 4) : c.words[i] = constants[i] := by
  interval_cases i <;> rfl

@[simp] theorem Instance.words_setInit (c : Instance) : c.setInit.words = c.words := rfl
@[simp] theorem Instance.words_clearInit (c : Instance) : c.clearInit.words = c.words := rfl
@[simp] theorem Instance.words_send (c : Instance) (q : Packet) : (c.send q).words = c.words := rfl

/-- What SETSTATE stores is what every reader then sees. -/
@[simp] theorem Instance.words_storeWords_pack (c : Instance) (key nonce : List Byte) (ctr : Word) :
    (c.storeWords (pack key nonce ctr)).words = pack key nonce ctr := rfl

/-- The Working State determines, and is determined by, the key, counter and nonce registers. -/
theorem Instance.words_eq_iff (c d : Instance) :
    c.words = d.words ↔ c.key = d.key ∧ c.ctr = d.ctr ∧ c.nonce = d.nonce := by
  refine ⟨fun h => ⟨?_, ?_, ?_⟩, fun ⟨hk, hc, hn⟩ => by simp only [Instance.words, hk, hc, hn]⟩
  · ext1 i hi
    rw [← c.words_key i hi, ← d.words_key i hi, h]
  · rw [← c.words_ctr, ← d.words_ctr, h]
  · ext1 i hi
    rw [← c.words_nonce i hi, ← d.words_nonce i hi, h]

end Sys2Proof.Machine
end

