-- ==== Sys2Proof/Laws/Bytes.lean ====
section
/-! SUPPORT. Words and bytes: the little-endian coding and its regions (00_scope.md rule R7, 30_encoding.md rule R63). -/

namespace Sys2Proof

/-- `bytes_le` undoes `le32`. -/
@[simp] theorem bytesLe_le32 (a b c d : Byte) : bytesLe (le32 a b c d) = [a, b, c, d] := by
  simp only [bytesLe, le32, List.cons.injEq, and_true]
  refine ⟨?_, ?_, ?_, ?_⟩ <;> apply BitVec.eq_of_toNat_eq <;>
    simp only [BitVec.extractLsb'_toNat, BitVec.toNat_ofNat, Nat.shiftRight_eq_div_pow] <;> omega

/-- `le32` undoes `bytes_le`. -/
theorem le32_bytes (w : Word) :
    le32 (w.extractLsb' 0 8) (w.extractLsb' 8 8) (w.extractLsb' 16 8) (w.extractLsb' 24 8) = w := by
  apply BitVec.eq_of_toNat_eq
  simp only [le32, BitVec.extractLsb'_toNat, BitVec.toNat_ofNat, Nat.shiftRight_eq_div_pow]
  omega

@[simp] theorem bytesLe_length (w : Word) : (bytesLe w).length = 4 := rfl

/-- Four bytes a word. -/
@[simp] theorem flatMap_bytesLe_length (ws : List Word) : (ws.flatMap bytesLe).length = 4 * ws.length := by
  induction ws with
  | nil => rfl
  | cons w ws ih => simp only [List.flatMap_cons, List.length_append, ih, bytesLe_length, List.length_cons]; omega

/-- A region has `ceil(n/4)` words. -/
@[simp] theorem regionWords_length (B : List Byte) : (regionWords B).length = wordsFor B.length := by
  induction B using regionWords.induct with
  | case1 => rfl
  | case2 a => simp [regionWords, wordsFor]
  | case3 a b => simp [regionWords, wordsFor]
  | case4 a b c => simp [regionWords, wordsFor]
  | case5 a b c d rest ih => simp only [regionWords, List.length_cons, ih, wordsFor]; omega

/-- The bytes of a region's words are the data and then the zero pad bytes. -/
theorem flatMap_regionWords (B : List Byte) :
    (regionWords B).flatMap bytesLe = B ++ List.replicate (4 * wordsFor B.length - B.length) 0#8 := by
  induction B using regionWords.induct with
  | case1 => rfl
  | case2 a => simp [regionWords, wordsFor]
  | case3 a b => simp [regionWords, wordsFor]
  | case4 a b c => simp [regionWords, wordsFor]
  | case5 a b c d rest ih =>
    have : 4 * wordsFor (rest.length + 1 + 1 + 1 + 1) - (rest.length + 1 + 1 + 1 + 1) = 4 * wordsFor rest.length - rest.length := by
      simp only [wordsFor]; omega
    simp only [regionWords, List.flatMap_cons, bytesLe_le32, ih, List.length_cons, this, List.cons_append, List.nil_append]

/-- Reading back a region gives its bytes. -/
@[simp] theorem regionBytes_regionWords (B : List Byte) : regionBytes B.length (regionWords B) = B := by
  simp [regionBytes, flatMap_regionWords]

/-- A region of the right word count yields all its bytes. -/
theorem regionBytes_length (n : Nat) (ws : List Word) (h : ws.length = wordsFor n) : (regionBytes n ws).length = n := by
  simp only [regionBytes, List.length_take, flatMap_bytesLe_length, h, wordsFor]
  omega

end Sys2Proof
end

