-- ==== Sys2Proof/Laws/Ops.lean ====
section
/-! SUPPORT. What each shared operation can do, said once: running a command, taking an error, serving a reset. -/

namespace Sys2Proof.Machine

/-- What the command `i` does to the instance that executes it. -/
def answerOf : Instr → Instance → Answer
  | .setstate key nonce ctr => setstateOn key nonce ctr
  | .getctr => getctrOn
  | .setctr value => setctrOn value
  | .xform buf => xformOn buf
  | .xformr buf start length => xformrOn buf start length
  | .xformc src dsize start length => xformcOn src dsize start length

/-- Every command runs on its instance through `runCommand`. -/
theorem exec_eq_runCommand (i : Instr) (s : State) : exec i s = runCommand (answerOf i) s := by cases i <;> rfl

/-- An executing instance's inbox is not empty. -/
theorem State.Executing.inbox {s : State} {port : Nat} {c : Instance} (h : s.Executing port c) :
    ∃ e rest, s.inbox = ⟨port, e⟩ :: rest := by
  obtain ⟨h, -⟩ := h
  match hb : s.inbox with
  | [] => simp [hb] at h
  | ⟨p, e⟩ :: rest => simp only [hb, List.head?_cons, Option.map_some, Option.some.injEq] at h; exact ⟨e, rest, by rw [← h]⟩

/-- An inbox's head and its instance execute. -/
theorem State.executing_of_inbox {s : State} {port : Nat} {e : HostEvent} {rest : List Arrival} {c : Instance}
    (h : s.inbox = ⟨port, e⟩ :: rest) (hc : s.instances[port]? = some c) : s.Executing port c :=
  ⟨by simp [h], hc⟩

/-- A command completes where an instance executes it. -/
theorem runCommand_of_executing {s : State} {port : Nat} {c : Instance} (h : s.Executing port c) (body : Instance → Answer) :
    runCommand body s = .next (s.commit port ((body c).1.send (body c).2)) := by
  obtain ⟨e, rest, hb⟩ := h.inbox
  simp [runCommand, hb, h.2]

/-- If a command answers a next state, an instance executed it and that state is its commit. -/
theorem runCommand_next {s t : State} {body : Instance → Answer} (h : runCommand body s = .next t) :
    ∃ port c, s.Executing port c ∧ t = s.commit port ((body c).1.send (body c).2) := by
  unfold runCommand at h
  split at h
  · cases h
  · rename_i a rest hb
    split at h
    · cases h
    · rename_i c hc
      cases h
      exact ⟨a.port, c, State.executing_of_inbox (e := a.event) hb hc, rfl⟩

/-- A command never ends in a refusal. -/
theorem runCommand_ne_refused (body : Instance → Answer) (s : State) (r : Refusal) : runCommand body s ≠ .refused r := by
  unfold runCommand
  split
  · simp
  · split <;> simp

/-- A command on an initialised instance goes on. -/
@[simp] theorem requireInit_of_init {c : Instance} (h : c.init = true) (rest : Instance → Answer) : requireInit rest c = rest c := by
  simp [requireInit, h]

/-- A command on an uninitialised instance ends there. -/
@[simp] theorem requireInit_of_not_init {c : Instance} (h : c.init = false) (rest : Instance → Answer) :
    requireInit rest c = raiseError .notInitialised c := by
  simp [requireInit, h]

/-- A reset completes where its port has an instance. -/
theorem resetArrival_of_executing {s : State} {port : Nat} {c : Instance} (h : s.Executing port c) :
    resetArrival s = .next (s.commit port (c.resetOn port)) := by
  obtain ⟨e, rest, hb⟩ := h.inbox
  simp [resetArrival, hb, h.2]

/-- What serving one event does to the instance it arrives at. -/
def serve (port : Nat) (c : Instance) : HostEvent → Instance
  | .command p =>
    match decode p with
    | .ok i => (answerOf i c).1.send (answerOf i c).2
    | .error _ => c.send ⟨Status.illegalCommand.word, []⟩
  | .reset => c.resetOn port
  | .resetDuring _ => c.resetOn port

/-- A step serves the event at the inbox's head, on its instance, and that is all it does. -/
theorem step_of_inbox {s : State} {a : Arrival} {rest : List Arrival} {c : Instance}
    (h : s.inbox = a :: rest) (hc : s.instances[a.port]? = some c) :
    step s = .next (s.commit a.port (serve a.port c a.event)) := by
  obtain ⟨port, e⟩ := a
  have hx : s.Executing port c := State.executing_of_inbox h hc
  have hf : fetch s = some e := by simp [fetch, h]
  cases e with
  | command p =>
    simp only [step, hf, serve]
    cases decode p with
    | ok i => simp only [exec_eq_runCommand, runCommand_of_executing hx]
    | error r => simp only [rejectPacket, runCommand_of_executing hx, raiseError]
  | reset => simp only [step, hf, serve, resetArrival_of_executing hx]
  | resetDuring p => simp only [step, hf, serve, resetArrival_of_executing hx]

/-- If a step answers a next state, it waited, or it served the inbox's head on its instance. -/
theorem step_next {s t : State} (h : step s = .next t) :
    (s.inbox = [] ∧ t = s) ∨
    ∃ a rest c, s.inbox = a :: rest ∧ s.instances[a.port]? = some c ∧ t = s.commit a.port (serve a.port c a.event) := by
  match hb : s.inbox with
  | [] =>
    simp only [step, fetch, hb, List.head?_nil, Option.map_none, idle, Host.Outcome.next.injEq] at h
    exact .inl ⟨rfl, h.symm⟩
  | a :: rest =>
    match hc : s.instances[a.port]? with
    | some c =>
      rw [step_of_inbox hb hc] at h
      cases h
      exact .inr ⟨a, rest, c, rfl, hc, rfl⟩
    | none =>
      exfalso
      obtain ⟨port, e⟩ := a
      cases e with
      | command p =>
        simp only [step, fetch, hb, List.head?_cons, Option.map_some] at h
        cases hd : decode p with
        | ok i => simp [hd, exec_eq_runCommand, runCommand, hb, hc] at h
        | error r => simp [hd, rejectPacket, runCommand, hb, hc] at h
      | reset => simp [step, fetch, resetArrival, hb, hc] at h
      | resetDuring p => simp [step, fetch, resetArrival, hb, hc] at h

end Sys2Proof.Machine
end

