-- ==== Sys2Proof/Laws/Buffers.lean ====
section
/-! SUPPORT. Buffers: what the transforms' byte loop reads and writes, and that no transform changes a buffer's length. -/

namespace Sys2Proof.Machine

@[simp] theorem memWrite_length (B : List Byte) (i : Nat) (v : Byte) : (memWrite B i v).length = B.length := by
  simp [memWrite]

/-- A byte read after a write: the byte written, or the byte that was there. -/
theorem memRead_memWrite (B : List Byte) (i k : Nat) (v : Byte) (hi : i < B.length) :
    memRead (memWrite B i v) k = if k = i then v else memRead B k := by
  by_cases h : k = i
  · subst h; simp [memRead, memWrite, hi]
  · simp [memRead, memWrite, h, List.getElem?_set_ne (Ne.symm h)]

@[simp] theorem xorBytes_length (KS : List Byte) (cur n : Nat) (B : List Byte) : (xorBytes KS cur n B).length = B.length := by
  induction n with
  | zero => rfl
  | succ n ih => simp [xorBytes, ih]

/-- The byte loop of rule R162, byte by byte: the `n` bytes from `cur` on are XORed with the block's, the others are as they were. -/
theorem xorBytes_getElem? (KS : List Byte) (cur n : Nat) (B : List Byte) (q : Nat) :
    (xorBytes KS cur n B)[q]? =
      B[q]?.map fun b => if cur ≤ q ∧ q < cur + n then b ^^^ KS.getD (q - cur) 0#8 else b := by
  induction n with
  | zero =>
    have h : ¬ (cur ≤ q ∧ q < cur + 0) := by omega
    simp only [xorBytes, h, if_false, Option.map_id']
  | succ n ih =>
    simp only [xorBytes, memWrite, memRead]
    by_cases hq : q = cur + n
    · subst hq
      have h1 : cur ≤ cur + n ∧ cur + n < cur + (n + 1) := by omega
      have h2 : ¬ (cur ≤ cur + n ∧ cur + n < cur + n) := by omega
      by_cases hl : cur + n < B.length
      · have hb : B[cur + n]? = some B[cur + n] := List.getElem?_eq_getElem hl
        rw [List.getElem?_set_self (by simpa using hl), List.getD_eq_getElem?_getD, ih, hb]
        simp
      · rw [List.getElem?_eq_none (by simp; omega), List.getElem?_eq_none (by omega)]; rfl
    · rw [List.getElem?_set_ne (by omega), ih]
      congr 1
      funext b
      have : (cur ≤ q ∧ q < cur + n) ↔ (cur ≤ q ∧ q < cur + (n + 1)) := by omega
      simp only [this]

/-- No transform changes the buffer's length. -/
theorem xorLoop_length (stop fuel cur : Nat) (c : Instance) (B : List Byte) : (xorLoop stop fuel cur c B).2.length = B.length := by
  induction fuel generalizing cur c B with
  | zero => rfl
  | succ fuel ih =>
    simp only [xorLoop]
    split
    · rw [ih, xorBytes_length]
    · rfl

@[simp] theorem xorRange_length (c : Instance) (B : List Byte) (start length : Nat) :
    (xorRange c B start length).2.length = B.length := xorLoop_length ..

end Sys2Proof.Machine
end

