-- ==== Sys2Proof/Laws/Sequencer.lean ====
section
/-! SUPPORT. The counter sequencer: the registers it never writes. -/

namespace Sys2Proof.Machine

/-- All that one advance can do. -/
theorem advance_cases (c : Instance) :
    (c.ctr + 1#32 = 0#32 ∧ advance c = { c with ctr := 0#32, nonce := c.nonce.set 0 (c.nonce[0] + 1#32) }) ∨
    (c.ctr + 1#32 ≠ 0#32 ∧ advance c = { c with ctr := c.ctr + 1#32 }) := by
  by_cases h : c.ctr + 1#32 = 0#32
  · exact .inl ⟨h, by simp only [advance, h, if_true]⟩
  · exact .inr ⟨h, by simp only [advance, h, if_false]⟩

@[simp] theorem advance_key (c : Instance) : (advance c).key = c.key := by
  obtain ⟨-, h⟩ | ⟨-, h⟩ := advance_cases c <;> rw [h]
@[simp] theorem advance_init (c : Instance) : (advance c).init = c.init := by
  obtain ⟨-, h⟩ | ⟨-, h⟩ := advance_cases c <;> rw [h]
@[simp] theorem advance_responses (c : Instance) : (advance c).responses = c.responses := by
  obtain ⟨-, h⟩ | ⟨-, h⟩ := advance_cases c <;> rw [h]
@[simp] theorem advance_draws (c : Instance) : (advance c).draws = c.draws := by
  obtain ⟨-, h⟩ | ⟨-, h⟩ := advance_cases c <;> rw [h]

/-- `adv^n`, the last advance split off. -/
theorem advanceBy_succ (n : Nat) (c : Instance) : advanceBy (n + 1) c = advance (advanceBy n c) := by
  induction n generalizing c with
  | zero => rfl
  | succ n ih => exact ih (advance c)

/-- Advances add up. -/
theorem advanceBy_add (m n : Nat) (c : Instance) : advanceBy (m + n) c = advanceBy n (advanceBy m c) := by
  induction m generalizing c with
  | zero => simp [advanceBy]
  | succ m ih => rw [Nat.add_right_comm]; exact ih (advance c)

@[simp] theorem advanceBy_key (n : Nat) (c : Instance) : (advanceBy n c).key = c.key := by
  induction n generalizing c with | zero => rfl | succ n ih => simp [advanceBy, ih]
@[simp] theorem advanceBy_init (n : Nat) (c : Instance) : (advanceBy n c).init = c.init := by
  induction n generalizing c with | zero => rfl | succ n ih => simp [advanceBy, ih]
@[simp] theorem advanceBy_responses (n : Nat) (c : Instance) : (advanceBy n c).responses = c.responses := by
  induction n generalizing c with | zero => rfl | succ n ih => simp [advanceBy, ih]
@[simp] theorem advanceBy_draws (n : Nat) (c : Instance) : (advanceBy n c).draws = c.draws := by
  induction n generalizing c with | zero => rfl | succ n ih => simp [advanceBy, ih]

end Sys2Proof.Machine
end

