-- ==== Sys2Proof/Laws/PerInstr.lean ====
section
/-! SUPPORT. A fact of every command, one lemma per constructor: the header the encoder writes holds the command's opcode in OPC and zeros in its
reserved bits, and no length field unless the command is SETSTATE (30_encoding.md rule R61). -/

namespace Sys2Proof.Laws.HeaderFields

/-- OPC is the command's, the reserved byte is 0, and KLEN and NLEN are 0 for every command but SETSTATE. -/
def Statement (i : Instr) : Prop :=
  (encode i).opc = i.opcode.code ∧ (encode i).reserved = 0#8 ∧ (i.opcode ≠ .setstate → (encode i).lengthField = 0#16)

/-- The byte fields of a header word. -/
theorem headerWord_bytes (op : Opcode) (klen nlen : Nat) :
    bytesLe (headerWord op klen nlen) = [op.code, BitVec.ofNat 8 klen, BitVec.ofNat 8 nlen, 0#8] := bytesLe_le32 ..

/-- A header with no length field, whatever follows it. -/
theorem statement_of_header (i : Instr) (h : (encode i).header = headerWord i.opcode 0 0) : Statement i := by
  simp only [Statement, Packet.opc, Packet.reserved, Packet.lengthField, h]
  cases i.opcode <;> decide

theorem setstate (key nonce : List Byte) (ctr : Word) : Statement (.setstate key nonce ctr) := by
  have h := headerWord_bytes .setstate key.length nonce.length
  simp only [bytesLe, List.cons.injEq] at h
  exact ⟨h.1, h.2.2.2.1, fun hne => absurd rfl hne⟩
theorem getctr : Statement .getctr := statement_of_header _ rfl
theorem setctr (value : Word) : Statement (.setctr value) := statement_of_header _ rfl
theorem xform (buf : List Byte) : Statement (.xform buf) := statement_of_header _ rfl
theorem xformr (buf : List Byte) (start length : Word) : Statement (.xformr buf start length) := statement_of_header _ rfl
theorem xformc (src : List Byte) (dsize start length : Word) : Statement (.xformc src dsize start length) := statement_of_header _ rfl

end Sys2Proof.Laws.HeaderFields
end

