-- ==== Sys2Proof/Laws/Decode.lean ====
section
/-! SUPPORT. What the decoder can answer, said once (30_encoding.md rule R73). -/

namespace Sys2Proof

/-- The opcode map and its inverse: a byte is an opcode's code, or reserved. -/
theorem Opcode.ofByte_cases (b : Byte) :
    (Opcode.ofByte b = none ∧ (b.toNat = 0 ∨ 7 ≤ b.toNat)) ∨ ∃ op, Opcode.ofByte b = some op ∧ b = op.code := by
  revert b
  decide +kernel

/-- The payload of a decoded command, by the command. -/
theorem decode_ok {p : Packet} {i : Instr} (h : decode p = .ok i) :
    Opcode.ofByte p.opc = some i.opcode ∧ p.reserved = 0#8 ∧ (i.opcode ≠ .setstate → p.lengthField = 0#16) ∧
    match i with
    | .setstate key nonce ctr =>
      p.payload.drop (wordsFor p.klen + wordsFor p.nlen) = [ctr] ∧
      key = regionBytes p.klen (p.payload.take (wordsFor p.klen)) ∧
      nonce = regionBytes p.nlen ((p.payload.drop (wordsFor p.klen)).take (wordsFor p.nlen))
    | .getctr => p.payload = []
    | .setctr value => p.payload = [value]
    | .xform buf => ∃ size region, p.payload = size :: region ∧ region.length = wordsFor size.toNat ∧
        buf = regionBytes size.toNat region
    | .xformr buf start length => ∃ size region, p.payload = size :: start :: length :: region ∧
        region.length = wordsFor size.toNat ∧ buf = regionBytes size.toNat region
    | .xformc src dsize start length => ∃ size region, p.payload = size :: dsize :: start :: length :: region ∧
        region.length = wordsFor size.toNat ∧ src = regionBytes size.toNat region := by
  unfold decode at h
  cases ho : Opcode.ofByte p.opc with
  | none => simp [ho] at h
  | some op =>
    simp only [ho] at h
    split at h
    · cases h
    split at h
    · cases h
    rename_i hr hl
    simp only [ne_eq, not_not] at hr
    simp only [ne_eq, not_and, not_not] at hl
    cases op <;> simp only [decodeSetstate, decodeGetctr, decodeSetctr, decodeXform, decodeXformr, decodeXformc] at h <;>
      split at h <;> (try split at h) <;> simp only [reduceCtorEq, Except.ok.injEq] at h <;> subst h <;>
      simp_all [Instr.opcode]

end Sys2Proof
end

