-- ==== Sys2Proof/Laws/Commands.lean ====
section
/-! SUPPORT. What no command does to its instance, whatever it answers: the responses sent before and the draws made stay; and what a
served event leaves at every port. -/

namespace Sys2Proof.Machine

/-- The transforms' loop changes its instance by advances only. -/
theorem xorLoop_advances (stop fuel cur : Nat) (c : Instance) (B : List Byte) :
    ∃ n, (xorLoop stop fuel cur c B).1 = advanceBy n c := by
  induction fuel generalizing cur c B with
  | zero => exact ⟨0, rfl⟩
  | succ fuel ih =>
    simp only [xorLoop]
    split
    · obtain ⟨n, h⟩ := ih (cur + min blockBytes (stop - cur)) (advance c) (xorBytes (block c.words) cur (min blockBytes (stop - cur)) B)
      exact ⟨n + 1, h⟩
    · exact ⟨0, rfl⟩

/-- Every command leaves the responses already sent, and the draws, as they were. -/
theorem answerOf_kept (i : Instr) (c : Instance) :
    (answerOf i c).1.responses = c.responses ∧ (answerOf i c).1.draws = c.draws := by
  have hx : ∀ stop fuel cur B, (xorLoop stop fuel cur c B).1.responses = c.responses ∧ (xorLoop stop fuel cur c B).1.draws = c.draws := by
    intro stop fuel cur B
    obtain ⟨n, h⟩ := xorLoop_advances stop fuel cur c B
    simp [h]
  cases i <;>
    simp only [answerOf, setstateOn, getctrOn, setctrOn, xformOn, xformrOn, xformcOn, requireInit, respond, raiseError, respondBuffer, xorRange] <;>
    split <;> (try split) <;> (try split) <;> simp [hx]

@[simp] theorem answerOf_responses (i : Instr) (c : Instance) : (answerOf i c).1.responses = c.responses := (answerOf_kept i c).1
@[simp] theorem answerOf_draws (i : Instr) (c : Instance) : (answerOf i c).1.draws = c.draws := (answerOf_kept i c).2

/-- A command either ends OK or is an error taken by `raiseError`: there is no third way. -/
theorem answerOf_ok_or_error (i : Instr) (c : Instance) :
    (answerOf i c).2.header = 0#32 ∨ ∃ st, answerOf i c = raiseError st c := by
  cases i <;>
    simp only [answerOf, setstateOn, getctrOn, setctrOn, xformOn, xformrOn, xformcOn, requireInit, respond, respondBuffer, xorRange] <;>
    split <;> (try split) <;> (try split) <;> first | (left; rfl) | (right; exact ⟨_, rfl⟩)

/-- After a commit, the instance committed stands on its port, and every other port's instance is as it was. -/
theorem State.commit_getElem? {s : State} {port : Nat} {c : Instance} (h : s.Executing port c) (d : Instance) (k : Nat) :
    (s.commit port d).instances[k]? = if k = port then some d else s.instances[k]? := by
  obtain ⟨hl, -⟩ := List.getElem?_eq_some_iff.1 h.2
  by_cases hk : k = port
  · subst hk; simp [hl]
  · simp [hk, List.getElem?_set_ne (Ne.symm hk)]

/-- The response a command was answered with is its instance's last. -/
theorem State.lastResponse_commit {s : State} {port : Nat} {c : Instance} (h : s.Executing port c) (d : Instance) (q : Packet) :
    (s.commit port (d.send q)).lastResponse port = some q := by
  rw [State.lastResponse, State.commit_getElem? h]
  simp

end Sys2Proof.Machine
end

