-- ==== Sys2Proof/Tests/Slice0.lean ====
section
/-! SUPPORT. Tests. Every expected value is the spec's: 95_test_vectors.md (V and P rows), the examples of the rules, or a packet written out from
30_encoding.md. At the end, for every obligation with hypotheses, a state and operands that meet them. -/

namespace Sys2Proof.Tests
open Sys2Proof.Machine Sys2Proof.Spec

/-! ### Helpers -/

/-- KEY, N1 and N2 of 95_test_vectors.md. -/
def key : List Byte := [0x00, 0x01, 0x02, 0x03, 0x04, 0x05, 0x06, 0x07, 0x08, 0x09, 0x0a, 0x0b, 0x0c, 0x0d, 0x0e, 0x0f,
  0x10, 0x11, 0x12, 0x13, 0x14, 0x15, 0x16, 0x17, 0x18, 0x19, 0x1a, 0x1b, 0x1c, 0x1d, 0x1e, 0x1f]
def nonce1 : List Byte := [0, 0, 0, 0x09, 0, 0, 0, 0x4a, 0, 0, 0, 0]

/-- The state words of KEY, N1 and a counter, as V1 writes them. -/
def stateWords (ctr : Word) : Vector Word 16 :=
  #v[0x61707865, 0x3320646e, 0x79622d32, 0x6b206574, 0x03020100, 0x07060504, 0x0b0a0908, 0x0f0e0d0c,
    0x13121110, 0x17161514, 0x1b1a1918, 0x1f1e1d1c, ctr, 0x09000000, 0x4a000000, 0x00000000]

/-- An instance after `SETSTATE key=KEY, nonce=N1, ctr=ctr` ("ready" in V10). -/
def ready (ctr : Word) : Instance := (Instance.reset.storeWords (stateWords ctr)).setInit

/-- Two instances, the first of them `c`, and one packet presented to it. -/
def sys (c : Instance) (p : Packet) : State := { instances := [c, Instance.reset], inbox := [⟨0, .command p⟩] }

/-- The state a step leaves, if it leaves one. -/
def next? : Host.Outcome State Fault Refusal → Option State
  | .next t => some t
  | .fault _ => none
  | .refused _ => none

/-- The response to a packet, and then S[12], S[13] and INIT of the instance, as the P tables list them. -/
def reply (c : Instance) (p : Packet) : Option (Option Packet × Word × Word × Bool) :=
  (next? (step (sys c p))).bind fun t => t.instances.head?.map fun d => (d.responses.getLast?, d.ctr, d.words[13], d.init)

/-! ### Well-formedness: each check refuses an ill-formed command -/

theorem test_wf_refuses_key_of_256_bytes : (Instr.setstate (List.replicate 256 0) [] 0).wf = false := by decide +kernel
theorem test_wf_refuses_nonce_of_256_bytes : (Instr.setstate [] (List.replicate 256 0) 0).wf = false := by decide +kernel
theorem test_wf_refuses_xform_past_maxBuf : (Instr.xform (List.replicate (Config.maxBuf + 1) 0)).wf = false := by
  simp [Instr.wf]
theorem test_wf_refuses_xformr_past_maxBuf : (Instr.xformr (List.replicate (Config.maxBuf + 1) 0) 0 0).wf = false := by
  simp [Instr.wf]
theorem test_wf_refuses_xformc_past_maxBuf : (Instr.xformc (List.replicate (Config.maxBuf + 1) 0) 0 0 0).wf = false := by
  simp [Instr.wf]
theorem test_wf_admits_wrong_key_length : (Instr.setstate (List.replicate 255 0) [] 0).wf = true := by decide +kernel

/-! ### Decoding, from packets written out -/

/-- Rule R79's SETSTATE packet. -/
theorem test_decode_setstate :
    decode ⟨0x000C2001, [0x03020100, 0x07060504, 0x0B0A0908, 0x0F0E0D0C, 0x13121110, 0x17161514, 0x1B1A1918, 0x1F1E1D1C,
      0x09000000, 0x4A000000, 0x00000000, 0x00000001]⟩ = .ok (.setstate key nonce1 1) := by decide +kernel
theorem test_decode_getctr : decode ⟨0x00000002, []⟩ = .ok .getctr := by decide
theorem test_decode_setctr : decode ⟨0x00000003, [0xDEADBEEF]⟩ = .ok (.setctr 0xDEADBEEF) := by decide
/-- SIZE 5: byte 4 is the lowest byte of the second word, the three pad bytes above it are ignored (rule R63). -/
theorem test_decode_xform : decode ⟨0x00000004, [5, 0x04030201, 0xFFFFFF05]⟩ = .ok (.xform [1, 2, 3, 4, 5]) := by decide
theorem test_decode_xformr : decode ⟨0x00000005, [3, 1, 2, 0xCC030201]⟩ = .ok (.xformr [1, 2, 3] 1 2) := by decide
theorem test_decode_xformc : decode ⟨0x00000006, [4, 8, 9, 7, 0x04030201]⟩ = .ok (.xformc [1, 2, 3, 4] 8 9 7) := by decide
/-- A key of 5 bytes takes two words, a nonce of 1 byte the next (rule R65). -/
theorem test_decode_setstate_odd_lengths :
    decode ⟨0x00010501, [0x04030201, 0x00000005, 0x00000006, 7]⟩ = .ok (.setstate [1, 2, 3, 4, 5] [6] 7) := by decide
/-- V10: OPC 0x00 and 0x07, a reserved bit, a KLEN bit on GETCTR, and three wrong word counts. -/
theorem test_decode_rejects_by_name :
    decode ⟨0x00000000, []⟩ = .error .reservedOpcode ∧ decode ⟨0x00000007, []⟩ = .error .reservedOpcode ∧
    decode ⟨0x01000002, []⟩ = .error .reservedBits ∧ decode ⟨0x00000102, []⟩ = .error .lengthBits ∧
    decode ⟨0x00000002, [0]⟩ = .error .wordCount ∧ decode ⟨0x00000004, [5, 0]⟩ = .error .wordCount ∧
    decode ⟨0x000c2001, List.replicate 11 0⟩ = .error .wordCount := by decide +kernel
/-- Every row of the opcode table, its operand words zero. -/
theorem test_decode_table_words :
    [1, 2, 3, 4, 5, 6].map (decodeTableWord 32) =
      [some (.setstate [] [] 0), some .getctr, some (.setctr 0), some (.xform []), some (.xformr [] 0 0), some (.xformc [] 0 0 0)] ∧
    decodeTableWord 32 7 = none := by decide

/-! ### The block function and the sequencer -/

/-- V5, the rows that are not examples of rule R120. -/
theorem test_quarter_round_single_bits :
    quarterRound 1 0 0 0 = (0x10000001, 0x80808808, 0x01010110, 0x01000110) ∧
    quarterRound 0 0 0 1 = (0x10000000, 0x80800808, 0x01010010, 0x01000010) := by decide
/-- V5's rotations. -/
theorem test_rotl : rotl 0x80000001 16 = 0x00018000 ∧ rotl 0x80000001 12 = 0x00001800 ∧ rotl 0x01020304 8 = 0x02030401 ∧
    rotl 0x80000001 7 = 0x000000c0 := by decide
/-- V2, after the first double round. -/
theorem test_double_round : doubleRound (stateWords 1) =
    #v[0xcd52e917, 0x85ab03b4, 0xb3457395, 0xf96de7dd, 0xc4b7cd22, 0x5c2e187a, 0xc95eb461, 0x316c801a,
      0x7bf7d740, 0x7eddd644, 0xf1a1bdf5, 0x761246ca, 0x6b0d58a3, 0x6798471a, 0xd737f167, 0xf173888d] := by decide +kernel
/-- V2, the whole block. -/
theorem test_block : block (stateWords 1) =
    [0x10, 0xf1, 0xe7, 0xe4, 0xd1, 0x3b, 0x59, 0x15, 0x50, 0x0f, 0xdd, 0x1f, 0xa3, 0x20, 0x71, 0xc4,
      0xc7, 0xd1, 0xf4, 0xc7, 0x33, 0xc0, 0x68, 0x03, 0x04, 0x22, 0xaa, 0x9a, 0xc3, 0xd4, 0x6c, 0x4e,
      0xd2, 0x82, 0x64, 0x46, 0x07, 0x9f, 0xaa, 0x09, 0x14, 0xc2, 0xd7, 0x05, 0xd9, 0x8b, 0x02, 0xa2,
      0xb5, 0x12, 0x9c, 0xd1, 0xde, 0x16, 0x4e, 0xb9, 0xcb, 0xd0, 0x83, 0xe8, 0xa2, 0x50, 0x3c, 0x4e] := by decide +kernel
/-- V3 and V4: the carry, and the double carry that stops at S[13]. -/
theorem test_advance_carries :
    ((advance (ready 0xFFFFFFFF)).ctr, (advance (ready 0xFFFFFFFF)).nonce) = (0, #v[0x09000001, 0x4a000000, 0]) ∧
    (advance { ready 0xFFFFFFFF with nonce := #v[0xFFFFFFFF, 0x4a, 0] }).nonce = #v[0, 0x4a, 0] := by decide

/-! ### One step per test -/

/-- Rule R102's example, on a fresh instance (V1). -/
theorem test_setstate : (next? (step (sys Instance.reset (encode (.setstate key nonce1 1))))).map (fun t => t.instances.map fun c => (c.words, c.init, c.responses)) =
    some [(stateWords 1, true, [⟨0, []⟩]), (Instance.reset.words, false, [])] := by decide +kernel
/-- P5 step 2: a 16-byte key; INIT stays 0. -/
theorem test_setstate_wrong_key : reply Instance.reset
    ⟨0x000c1001, [0x03020100, 0x07060504, 0x0b0a0908, 0x0f0e0d0c, 0x09000000, 0x4a000000, 0, 0]⟩ = some (some ⟨1, []⟩, 0, 0, false) := by
  decide +kernel
/-- P5 steps 1 and 10. -/
theorem test_getctr : reply Instance.reset ⟨2, []⟩ = some (some ⟨5, []⟩, 0, 0, false) ∧
    reply (ready 5) ⟨2, []⟩ = some (some ⟨0, [5]⟩, 5, 0x09000000, true) := by decide +kernel
/-- V10's fresh row; and a counter written beside an untouched S[13]. -/
theorem test_setctr : reply Instance.reset ⟨3, [0]⟩ = some (some ⟨5, []⟩, 0, 0, false) ∧
    reply (ready 5) ⟨3, [0xFFFFFFFF]⟩ = some (some ⟨0, []⟩, 0xFFFFFFFF, 0x09000000, true) := by decide +kernel
/-- V8: SIZE 0 advances nothing; one byte 0xff comes back as ef and advances one block. -/
theorem test_xform : reply (ready 1) ⟨4, [0]⟩ = some (some ⟨0, []⟩, 1, 0x09000000, true) ∧
    reply (ready 1) ⟨4, [1, 0xff]⟩ = some (some ⟨0, [0xef]⟩, 2, 0x09000000, true) := by decide +kernel
/-- V8, 65 bytes: the last byte is byte 0 of the block at counter 2, alone in its word with zero pad bytes. -/
theorem test_xform_second_block :
    (reply (ready 1) ⟨4, 65 :: List.replicate 17 0⟩).map (fun r => (r.1.map fun q => q.payload.drop 15, r.2.1)) =
      some (some [0x4e3c50a2, 0x0000000a], 3) := by decide +kernel
/-- V7, first and sixth row: start 2, length 3; and a sum that would wrap. -/
theorem test_xformr : reply (ready 1) ⟨5, [8, 2, 3, 0, 0]⟩ = some (some ⟨0, [0xf1100000, 0x000000e7]⟩, 2, 0x09000000, true) ∧
    reply (ready 1) ⟨5, [8, 0xFFFFFFFF, 2, 0, 0]⟩ = some (some ⟨3, []⟩, 1, 0x09000000, true) := by decide +kernel
/-- V7, third to fifth row: the ends of the range. -/
theorem test_xformr_range_ends : reply (ready 1) ⟨5, [8, 8, 0, 0, 0]⟩ = some (some ⟨0, [0, 0]⟩, 1, 0x09000000, true) ∧
    reply (ready 1) ⟨5, [8, 9, 0, 0, 0]⟩ = some (some ⟨3, []⟩, 1, 0x09000000, true) ∧
    reply (ready 1) ⟨5, [8, 4, 5, 0, 0]⟩ = some (some ⟨3, []⟩, 1, 0x09000000, true) := by decide +kernel
/-- V8: start 3, length 2 in the middle of the source. -/
theorem test_xformc : reply (ready 1) ⟨6, [8, 8, 3, 2, 0x04030201, 0x08070605]⟩ =
    some (some ⟨0, [0x14030201, 0x080706f4]⟩, 2, 0x09000000, true) := by decide +kernel
/-- V10: SIZE_MISMATCH ranks above RANGE_VIOLATION; V8: RANGE_VIOLATION. -/
theorem test_xformc_errors : reply (ready 5) ⟨6, [4, 8, 9, 0, 0]⟩ = some (some ⟨2, []⟩, 5, 0x09000000, true) ∧
    reply (ready 1) ⟨6, [4, 4, 2, 3, 0]⟩ = some (some ⟨3, []⟩, 1, 0x09000000, true) := by decide +kernel
/-- V10: an undecodable packet ranks above NOT_INITIALISED, and has no effect. -/
theorem test_illegal_packet : reply Instance.reset ⟨7, []⟩ = some (some ⟨4, []⟩, 0, 0, false) ∧
    reply (ready 5) ⟨0x01000002, []⟩ = some (some ⟨4, []⟩, 5, 0x09000000, true) := by decide +kernel
/-- Rule R230: a reset clears INIT on its own instance, sends nothing, and leaves the other alone. -/
theorem test_reset_event :
    (next? (step { instances := [ready 1, ready 2], inbox := [⟨1, .reset⟩] })).map (fun t => t.instances.map fun c => (c.init, c.responses)) =
      some [(true, []), (false, [])] := by decide +kernel
/-- The first step after reset runs the command a host presents. -/
theorem test_first_step_after_reset :
    (next? (step (State.reset.withFetchWord 32 2))).bind (fun t => t.lastResponse 0) = some ⟨5, []⟩ := by decide

/-! ### Witnesses: states and operands that meet each obligation's hypotheses -/

/-- A ready instance executes. -/
theorem executing (c : Instance) (p : Packet) : (sys c p).Executing 0 c := ⟨rfl, rfl⟩

theorem witness_StepRunsTheDecodedCommand :
    (sys (ready 1) ⟨2, []⟩).inbox = ⟨0, .command ⟨2, []⟩⟩ :: [] ∧ decode ⟨2, []⟩ = .ok .getctr ∧ decodeTableWord 32 2 = some .getctr := by
  decide
theorem witness_CoreWaitsWithNothingPresented : State.reset.inbox = [] := rfl
theorem witness_EveryAcceptedEventCompletes :
    (sys (ready 1) ⟨2, []⟩).PortsExist ∧ (sys (ready 1) ⟨2, []⟩).inbox = ⟨0, .command ⟨2, []⟩⟩ :: [] := by
  simp [State.PortsExist, sys]
theorem witness_EveryCommandIsAnsweredOnce : (sys (ready 1) ⟨2, []⟩).Executing 0 (ready 1) := executing ..
theorem witness_ExecStopsOnlyWithoutAnInstance :
    (∃ port c, (sys (ready 1) ⟨2, []⟩).Executing port c) ∧ ¬ ∃ port c, State.reset.Executing port c := by
  refine ⟨⟨0, ready 1, executing ..⟩, ?_⟩
  rintro ⟨port, c, h, -⟩
  cases h
theorem witness_EveryStepKeepsTheSystemSafe : ∃ t, (sys (ready 1) ⟨2, []⟩).Inv ∧ step (sys (ready 1) ⟨2, []⟩) = .next t := by
  refine ⟨_, ⟨by decide, by simp [State.PortsExist, sys], ?_⟩, step_of_inbox rfl rfl⟩
  simp [sys, ready, Instance.reset]
theorem witness_DecodeEncodeRoundTrip : (Instr.setstate key nonce1 1).wf = true ∧ (Instr.xformr [1] 0 1).wf = true := by decide
theorem witness_DecodedOperandsAreThePacketsFields : decode ⟨4, [5, 0x04030201, 0xFFFFFF05]⟩ = .ok (.xform [1, 2, 3, 4, 5]) := by decide
theorem witness_OpcSelectsTheCommand : opc ⟨0, []⟩ = 0 ∧ 7 ≤ opc ⟨7, []⟩ ∧ 7 ≤ opc ⟨0xFF, []⟩ ∧
    decode ⟨1, [0]⟩ = .ok (.setstate [] [] 0) ∧ decode ⟨6, [0, 0, 0, 0]⟩ = .ok (.xformc [] 0 0 0) := by decide
theorem witness_IllegalPacketsAreAnsweredAndHaveNoEffect :
    IllegalPacket ⟨0, []⟩ ∧ IllegalPacket ⟨7, []⟩ ∧ IllegalPacket ⟨0x01000002, []⟩ ∧ IllegalPacket ⟨0x00000102, []⟩ ∧
    IllegalPacket ⟨0x00800004, [0]⟩ ∧ IllegalPacket ⟨2, [0]⟩ ∧ ¬ IllegalPacket ⟨2, []⟩ ∧
    (sys (ready 1) ⟨7, []⟩).inbox = ⟨0, .command ⟨7, []⟩⟩ :: [] ∧ (sys (ready 1) ⟨7, []⟩).instances[0]? = some (ready 1) := by
  refine ⟨.inl rfl, .inr (.inl (by decide)), .inr (.inr (.inl (by decide))), .inr (.inr (.inr (.inl (by decide)))),
    .inr (.inr (.inr (.inl (by decide)))), .inr (.inr (.inr (.inr ?_))), ?_, rfl, rfl⟩
  · simp [CountMatches, opc]
  · simp [IllegalPacket, CountMatches, opc]
theorem witness_RegionsPackBytesLittleEndian :
    ([0xff] : List Byte).length ≤ 1 ∧ (regionWords [0xff])[1 / 4]? = some 0x000000ff ∧ ([0xAABBCCDD] : List Word).length = ceil4 1 := by decide
theorem witness_ErrorsHaveNoEffect : ∃ t c' q, (sys Instance.reset ⟨2, []⟩).inbox = ⟨0, .command ⟨2, []⟩⟩ :: [] ∧
    (sys Instance.reset ⟨2, []⟩).instances[0]? = some Instance.reset ∧ step (sys Instance.reset ⟨2, []⟩) = .next t ∧
    t.instances[0]? = some c' ∧ c'.responses = Instance.reset.responses ++ [q] ∧ q.header ≠ 0 :=
  ⟨_, _, ⟨5, []⟩, rfl, rfl, step_of_inbox rfl rfl, rfl, rfl, by decide⟩
theorem witness_StatusIsTheFirstErrorInPriority : (sys (ready 1) ⟨7, []⟩).Executing 0 (ready 1) ∧ IllegalPacket ⟨7, []⟩ ∧
    (sys (ready 1) ⟨7, []⟩).inbox = ⟨0, .command ⟨7, []⟩⟩ :: [] ∧ (sys (ready 1) ⟨7, []⟩).instances[0]? = some (ready 1) :=
  ⟨executing .., .inr (.inl (by decide)), rfl, rfl⟩
theorem witness_UninitialisedInstanceAnswersNotInitialised :
    (sys Instance.reset ⟨2, []⟩).Executing 0 Instance.reset ∧ Instance.reset.init = false := ⟨executing .., rfl⟩
theorem witness_SetstateRejectsWrongLengths : (sys (ready 1) ⟨2, []⟩).Executing 0 (ready 1) ∧ (key.drop 1).length ≠ 32 ∧
    (0 :: key).length ≠ 32 ∧ (nonce1.drop 1).length ≠ 12 := ⟨executing .., by decide, by decide, by decide⟩
theorem witness_XformcRejectsSizeMismatch : (sys (ready 1) ⟨2, []⟩).Executing 0 (ready 1) ∧ (ready 1).init = true ∧
    ([1, 2, 3] : List Byte).length ≠ (4 : Word).toNat := ⟨executing .., rfl, by decide⟩
theorem witness_RangeViolationsAreRejected : (sys (ready 1) ⟨2, []⟩).Executing 0 (ready 1) ∧ (ready 1).init = true ∧
    (4 : Word).toNat + (5 : Word).toNat > (List.replicate 8 (0 : Byte)).length ∧
    (0xFFFFFFFF : Word).toNat + (2 : Word).toNat > (8 : Word).toNat ∧ (List.replicate 8 (0 : Byte)).length = (8 : Word).toNat :=
  ⟨executing .., rfl, by decide, by decide, by decide⟩
theorem witness_PackLaysOutKeyCounterAndNonce : key.length = 32 ∧ nonce1.length = 12 := by decide
theorem witness_PackIsInjective : key.length = 32 ∧ key.length = 32 ∧ nonce1.length = 12 ∧ nonce1.length = 12 ∧
    pack key nonce1 1 = pack key nonce1 1 := by decide
theorem witness_SetstateLoadsTheWorkingState : (sys (ready 1) ⟨2, []⟩).Executing 0 (ready 1) ∧
    (sys Instance.reset ⟨2, []⟩).Executing 0 Instance.reset ∧ key.length = 32 ∧ nonce1.length = 12 :=
  ⟨executing .., executing .., by decide, by decide⟩
theorem witness_ReinitialisationIsComplete : ∃ t t' d d', (sys (ready 7) ⟨2, []⟩).Executing 0 (ready 7) ∧
    (sys Instance.reset ⟨2, []⟩).Executing 0 Instance.reset ∧ key.length = 32 ∧ nonce1.length = 12 ∧
    exec (.setstate key nonce1 1) (sys (ready 7) ⟨2, []⟩) = .next t ∧ exec (.setstate key nonce1 1) (sys Instance.reset ⟨2, []⟩) = .next t' ∧
    t.instances[0]? = some d ∧ t'.instances[0]? = some d' :=
  ⟨_, _, _, _, executing .., executing .., by decide, by decide, rfl, rfl, rfl, rfl⟩
theorem witness_GetctrReturnsTheCounter : (sys (ready 1) ⟨2, []⟩).Executing 0 (ready 1) ∧ (ready 1).init = true := ⟨executing .., rfl⟩
theorem witness_SetctrWritesTheCounterAlone : (sys (ready 1) ⟨3, [9]⟩).Executing 0 (ready 1) ∧ (ready 1).init = true := ⟨executing .., rfl⟩
/-- Two SETCTRs waiting at one instance. -/
def twice : State := { instances := [ready 1], inbox := [⟨0, .command ⟨3, [9]⟩⟩, ⟨0, .command ⟨3, [9]⟩⟩] }
theorem witness_CounterAndStateCommandsAreIdempotent : ∃ t u d e, twice.Executing 0 (ready 1) ∧ exec (.setctr 9) twice = .next t ∧
    t.Executing 0 d ∧ exec (.setctr 9) t = .next u ∧ u.instances[0]? = some e :=
  ⟨_, _, _, _, ⟨rfl, rfl⟩, rfl, ⟨rfl, rfl⟩, rfl, rfl⟩
theorem witness_CounterCommandsFrame : ∃ t, (sys (ready 1) ⟨3, [9]⟩).Executing 0 (ready 1) ∧
    exec (.setctr 9) (sys (ready 1) ⟨3, [9]⟩) = .next t := ⟨_, executing .., rfl⟩
theorem witness_SetstateFrame : ∃ t, (sys (ready 1) ⟨2, []⟩).Executing 0 (ready 1) ∧
    exec (.setstate key nonce1 1) (sys (ready 1) ⟨2, []⟩) = .next t := ⟨_, executing .., rfl⟩
theorem witness_NonTransformResponsesDoNotDependOnKeyOrNonce :
    (sys (ready 0) ⟨2, []⟩).Executing 0 (ready 0) ∧ (sys (Instance.reset.setInit) ⟨2, []⟩).Executing 0 Instance.reset.setInit ∧
    (ready 0).init = Instance.reset.setInit.init ∧ (ready 0).ctr = Instance.reset.setInit.ctr ∧ (ready 0).key ≠ Instance.reset.setInit.key :=
  ⟨executing .., executing .., rfl, rfl, by decide⟩
theorem witness_RotlMovesEveryBit : 0 < 1 ∧ 1 < 32 ∧ 0 < 31 ∧ 31 < 32 := by decide
theorem witness_QrxTouchesOnlyItsFourWords : [0, 5, 10, (15 : Fin 16)].Nodup ∧ (1 : Fin 16) ∉ [0, 5, 10, (15 : Fin 16)] := by decide
theorem witness_LanesOfARoundCommute :
    [(3, 7, 11, 15), (1, 5, 9, 13), (2, 6, 10, 14), (0, 4, 8, (12 : Fin 16))].Perm [((0 : Fin 16), (4 : Fin 16), (8 : Fin 16), 12), (1, 5, 9, 13), (2, 6, 10, 14), (3, 7, 11, 15)] ∧
    [(3, 4, 9, 14), (1, 6, 11, 12), (2, 7, 8, 13), (0, 5, 10, (15 : Fin 16))].Perm [((0 : Fin 16), (5 : Fin 16), (10 : Fin 16), 15), (1, 6, 11, 12), (2, 7, 8, 13), (3, 4, 9, 14)] := by
  decide
theorem witness_XorRangeClosedForm : 2 + 3 ≤ (List.replicate 8 (0 : Byte)).length ∧ 8 + 0 ≤ (List.replicate 8 (0 : Byte)).length := by decide
theorem witness_XformTransformsTheWholeBuffer : (sys (ready 1) ⟨4, [1, 0xff]⟩).Executing 0 (ready 1) ∧ (ready 1).init = true := ⟨executing .., rfl⟩
theorem witness_XformrTransformsTheRange : (sys (ready 1) ⟨2, []⟩).Executing 0 (ready 1) ∧ (ready 1).init = true ∧
    (2 : Word).toNat + (6 : Word).toNat ≤ (List.replicate 8 (0 : Byte)).length := ⟨executing .., rfl, by decide⟩
theorem witness_XformcCopiesThenTransformsTheRange : (sys (ready 1) ⟨2, []⟩).Executing 0 (ready 1) ∧ (ready 1).init = true ∧
    (List.replicate 8 (0 : Byte)).length = (8 : Word).toNat ∧ (8 : Word).toNat + (0 : Word).toNat ≤ (8 : Word).toNat :=
  ⟨executing .., rfl, by decide, by decide⟩
theorem witness_TransformFormsAgree : ([1, 2, 3] : List Byte).length ≤ Config.maxBuf := by decide
theorem witness_TransformsFrame : ∃ t, (sys (ready 1) ⟨4, [1, 0xff]⟩).Executing 0 (ready 1) ∧
    exec (.xform [0xff]) (sys (ready 1) ⟨4, [1, 0xff]⟩) = .next t := ⟨_, executing .., rfl⟩
theorem witness_BytesOutsideTheRangeAreReturnedUnchanged : ∃ t q, (sys (ready 1) ⟨2, []⟩).Executing 0 (ready 1) ∧
    exec (.xformr [1, 2, 3] 1 1) (sys (ready 1) ⟨2, []⟩) = .next t ∧ t.lastResponse 0 = some q ∧ q.header = 0 ∧
    0 < (1 : Word).toNat ∧ (1 : Word).toNat + (1 : Word).toNat ≤ 2 :=
  ⟨_, _, executing .., runCommand_of_executing (executing ..) _, State.lastResponse_commit (executing ..) _ _, rfl, by decide, by decide⟩
theorem witness_TransformingTwiceRestoresTheBuffer : ∃ t q, (sys (ready 1) ⟨2, []⟩).Executing 0 (ready 1) ∧
    (ready 1).words = (ready 1).words ∧ (ready 1).init = (ready 1).init ∧
    exec ((fun b => .xformc b 3 1 2) [1, 2, 3]) (sys (ready 1) ⟨2, []⟩) = .next t ∧ t.lastResponse 0 = some q ∧ q.header = 0 :=
  ⟨_, _, executing .., rfl, rfl, runCommand_of_executing (executing ..) _, State.lastResponse_commit (executing ..) _ _, rfl⟩
theorem witness_SplitRunsFollowTheCounterNotTheBuffer : 64 + 1 ≤ (List.replicate 65 (0 : Byte)).length ∧ 64 ∣ 64 ∧
    63 + 0 ≤ (List.replicate 65 (0 : Byte)).length ∧ 63 + 1 ≤ (List.replicate 65 (0 : Byte)).length ∧
    ¬ (64 ∣ 63 ∨ 1 = 0) := by decide +kernel
/-- A reset waiting at a ready instance. -/
def resetting (e : HostEvent) : State := { instances := [ready 1], inbox := [⟨0, e⟩] }
theorem witness_ResetEventClearsInitAndSendsNothing :
    (resetting .reset).inbox = ⟨0, .reset⟩ :: [] ∧ (resetting .reset).instances[0]? = some (ready 1) ∧
    (resetting (.resetDuring ⟨2, []⟩)).inbox = ⟨0, .resetDuring ⟨2, []⟩⟩ :: [] := ⟨rfl, rfl, rfl⟩
theorem witness_OnlySetstateBootsAnInstance : ∃ t c', (sys Instance.reset ⟨2, []⟩).inbox = ⟨0, .command ⟨2, []⟩⟩ :: [] ∧
    (sys Instance.reset ⟨2, []⟩).instances[0]? = some Instance.reset ∧ Instance.reset.init = false ∧
    step (sys Instance.reset ⟨2, []⟩) = .next t ∧ t.instances[0]? = some c' :=
  ⟨_, _, rfl, rfl, rfl, step_of_inbox rfl rfl, rfl⟩
theorem witness_ResetInstancesTrackTheEmptyHistory : Instance.reset ∈ State.reset.instances := by simp [State.reset, Config.nInst]
theorem witness_EveryStepKeepsTheKeyNonceInvariant : ∃ t c', (sys (ready 1) ⟨2, []⟩).inbox = ⟨0, .command ⟨2, []⟩⟩ :: [] ∧
    step (sys (ready 1) ⟨2, []⟩) = .next t ∧ (sys (ready 1) ⟨2, []⟩).instances[0]? = some (ready 1) ∧ t.instances[0]? = some c' ∧
    Tracks (ready 1) ⟨some (stateWords 7), 0⟩ := by
  refine ⟨_, _, rfl, step_of_inbox rfl rfl, rfl, rfl, by simp [ready], ?_⟩
  intro W hW
  cases hW
  decide +kernel
theorem witness_AnyInterleavingGivesTheSameResponses :
    let a : Arrival := ⟨0, .command ⟨2, []⟩⟩
    let b : Arrival := ⟨1, .reset⟩
    (∀ x ∈ [a, b], x.port < [ready 1, ready 2].length) ∧
    ∀ port, [a, b].filter (fun x => x.port = port) = [b, a].filter (fun x => x.port = port) := by
  refine ⟨by decide, fun port => ?_⟩
  match port with
  | 0 => rfl
  | 1 => rfl
  | n + 2 => rfl
theorem witness_EqualInstancesAnswerEqually : [ready 1][0]? = some (ready 1) ∧ [Instance.reset, ready 1][1]? = some (ready 1) ∧
    (ready 1).words = (ready 1).words ∧ (ready 1).init = (ready 1).init := ⟨rfl, rfl, rfl, rfl⟩
theorem witness_InstancesShareNoState : ∃ t, (sys (ready 1) ⟨2, []⟩).inbox = ⟨0, .command ⟨2, []⟩⟩ :: [] ∧
    step (sys (ready 1) ⟨2, []⟩) = .next t ∧ 1 ≠ 0 := ⟨_, rfl, step_of_inbox rfl rfl, by decide⟩
/-- An uninitialised instance with left-over words, beside one with none. -/
def leftover : Instance := { ready 1 with init := false }
theorem witness_NoCommandReadsWordsWithoutAValue :
    (sys leftover ⟨2, []⟩).inbox = (sys Instance.reset ⟨2, []⟩).inbox ∧ (sys leftover ⟨2, []⟩).PortsExist ∧
    List.Forall₂ Instance.AgreeWhereReadable (sys leftover ⟨2, []⟩).instances (sys Instance.reset ⟨2, []⟩).instances ∧
    leftover.words ≠ Instance.reset.words := by
  refine ⟨rfl, by simp [State.PortsExist, sys], ?_, by decide +kernel⟩
  refine .cons ⟨rfl, rfl, rfl, fun h => by cases h⟩ (.cons ⟨rfl, rfl, rfl, fun _ => rfl⟩ .nil)

end Sys2Proof.Tests
end

section
/-! PROOFS of the scope statements (00_scope.md): the step's dispatch and the rotation. -/

namespace Sys2Proof.Machine

/-- 30_encoding.md rule R73, its legal case: a presented packet that decodes runs as its command. -/
theorem step_of_decode_ok {s : State} {p : Packet} {i : Instr}
    (hf : fetch s = some (.command p)) (hd : decode p = .ok i) : step s = exec i s := by
  simp only [step, hf, hd]

/-- The inbox's head is what is fetched (20_memory.md rule R48). -/
theorem fetch_of_inbox {s : State} {a : Arrival} {rest : List Arrival} (h : s.inbox = a :: rest) :
    fetch s = some a.event := by
  simp only [fetch, h, List.head?_cons, Option.map_some]

/-- The model's rotation by shifts is the library's. -/
theorem rotl_eq_rotateLeft {n : Nat} (hn : n < 32) (x : Word) : rotl x n = x.rotateLeft n := by
  rw [rotl, BitVec.rotateLeft_def, Nat.mod_eq_of_lt hn]

end Sys2Proof.Machine

namespace Sys2Proof

/-- A table word is read as `i` exactly when its packet decodes to `i`. -/
theorem decodeTableWord_eq_some_iff {nbits w : Nat} {i : Instr} :
    decodeTableWord nbits w = some i ↔ decode (tablePacket nbits w) = .ok i := by
  unfold decodeTableWord
  cases decode (tablePacket nbits w) with
  | ok j => simp only [Option.some.injEq, Except.ok.injEq]
  | error r => simp only [reduceCtorEq]

end Sys2Proof

namespace Sys2Proof.Proofs
open Sys2Proof.Machine

/-- Settles O3: both forms present a packet that decodes to the command, and the step dispatches on it. -/
theorem stepRunsTheDecodedCommand : Obligations.StepRunsTheDecodedCommand := by
  refine ⟨fun s port p rest i hb hd => ?_, fun s nbits w i hw => ?_⟩
  · exact step_of_decode_ok (fetch_of_inbox hb) hd
  · have hb := State.withFetchWord_inbox s nbits w
    exact step_of_decode_ok (fetch_of_inbox hb) (decodeTableWord_eq_some_iff.mp hw)

/-- Settles O32: the low `n` bits come round from the top of `x`, the others move up by `n`. -/
theorem rotlMovesEveryBit : Obligations.RotlMovesEveryBit := by
  intro x n i _ hn hi
  rw [rotl_eq_rotateLeft hn, BitVec.getLsbD_rotateLeft, Nat.mod_eq_of_lt hn]
  by_cases hin : i < n
  · have hm : (i + 32 - n) % 32 = 32 - n + i := by omega
    simp only [hin, hm, decide_true, cond_true]
  · have hm : (i + 32 - n) % 32 = i - n := by omega
    simp only [hin, hi, hm, decide_true, decide_false, cond_false, Bool.true_and]

end Sys2Proof.Proofs
end

section
/-! PROOFS of the state statements (10_state.md): reset and the hardwired words, the frames of SETSTATE, GETCTR and SETCTR, the key and nonce
invariant of rule R32, the separation of instances, and that words without a value are never read. -/

namespace Sys2Proof.Machine
open Sys2Proof.Spec

/-! ### The step and its instance -/

/-- Every instance of the reset state is the reset instance. -/
theorem State.eq_reset_of_mem {c : Instance} (h : c ∈ State.reset.instances) : c = Instance.reset := List.eq_of_mem_replicate h

/-- A step with an event waiting serves it on the instance of its port. -/
theorem step_next_of_inbox {s t : State} {a : Arrival} {rest : List Arrival} (hb : s.inbox = a :: rest) (h : step s = .next t) :
    ∃ c, s.Executing a.port c ∧ t = s.commit a.port (serve a.port c a.event) := by
  obtain ⟨hnil, -⟩ | ⟨a', rest', c, hb', hc, ht⟩ := step_next h
  · cases hb.symm.trans hnil
  · cases hb.symm.trans hb'
    exact ⟨c, State.executing_of_inbox hb hc, ht⟩

/-- A command that answers a next state does so on the executing instance. -/
theorem exec_next_of_executing {i : Instr} {s t : State} {port : Nat} {c : Instance} (hx : s.Executing port c) (h : exec i s = .next t) :
    t = s.commit port ((answerOf i c).1.send (answerOf i c).2) := by
  rw [exec_eq_runCommand, runCommand_of_executing hx] at h
  cases h
  rfl

/-- With nothing presented a step changes nothing (rule R232). -/
theorem step_of_inbox_nil {s : State} (h : s.inbox = []) : step s = .next s := by
  simp only [step, fetch, h, List.head?_nil, Option.map_none, idle]

/-! ### What each command does to its instance's registers -/

/-- Only SETSTATE has SETSTATE's opcode. -/
theorem eq_setstate_of_opcode {i : Instr} (h : i.opcode = .setstate) : ∃ key nonce ctr, i = .setstate key nonce ctr := by
  cases i with
  | setstate key nonce ctr => exact ⟨key, nonce, ctr, rfl⟩
  | _ => cases h

/-- SETSTATE with the right lengths loads `pack` and sets INIT (rule R102). -/
theorem setstateOn_of_lengths {key nonce : List Byte} (h : key.length = 32 ∧ nonce.length = 12) (ctr : Word) (c : Instance) :
    setstateOn key nonce ctr c = respond (c.storeWords (pack key nonce ctr)).setInit [] := by
  simp [setstateOn, keyBytes, nonceBytes, h.1, h.2]

/-- SETSTATE with a wrong length is an error (rule R202). -/
theorem setstateOn_of_wrong_lengths {key nonce : List Byte} (h : ¬ (key.length = 32 ∧ nonce.length = 12)) (ctr : Word) (c : Instance) :
    setstateOn key nonce ctr c = raiseError .invalidArgument c := by
  by_cases hk : key.length = 32
  · have hn : nonce.length ≠ 12 := fun hn => h ⟨hk, hn⟩
    simp [setstateOn, keyBytes, nonceBytes, hk, hn]
  · simp [setstateOn, keyBytes, hk]

/-- GETCTR writes no register. -/
@[simp] theorem getctrOn_fst (c : Instance) : (getctrOn c).1 = c := by
  cases h : c.init <;> simp [getctrOn, h, respond, raiseError]

/-- SETCTR writes the counter of an initialised instance, and nothing else. -/
@[simp] theorem setctrOn_fst (value : Word) (c : Instance) : (setctrOn value c).1 = if c.init then c.setCtr value else c := by
  cases h : c.init <;> simp [setctrOn, h, respond, raiseError]

/-- Every command but SETSTATE is an error on an uninitialised instance (rule R201). -/
theorem answerOf_of_not_init {i : Instr} {c : Instance} (hi : i.opcode ≠ .setstate) (h : c.init = false) :
    answerOf i c = raiseError .notInitialised c := by
  cases i with
  | setstate key nonce ctr => exact absurd rfl hi
  | getctr => rw [answerOf, getctrOn, requireInit_of_not_init h]
  | setctr value => rw [answerOf, setctrOn, requireInit_of_not_init h]
  | xform buf => rw [answerOf, xformOn, requireInit_of_not_init h]
  | xformr buf start length => rw [answerOf, xformrOn, requireInit_of_not_init h]
  | xformc src dsize start length => rw [answerOf, xformcOn, requireInit_of_not_init h]

/-! ### How often a transform advances -/

@[simp] theorem advanceBy_zero (c : Instance) : advanceBy 0 c = c := rfl

/-- No bytes, no blocks. -/
@[simp] theorem blocks_zero : blocks 0 = 0 := rfl

/-- The loop of rule R162 advances once per block of what it has left to do (rule R152). -/
theorem xorLoop_fst (stop fuel cur : Nat) (c : Instance) (B : List Byte) (hf : stop - cur ≤ fuel) :
    (xorLoop stop fuel cur c B).1 = advanceBy (blocks (stop - cur)) c := by
  induction fuel generalizing cur c B with
  | zero =>
    have h0 : stop - cur = 0 := by omega
    simp only [xorLoop, h0, blocks_zero, advanceBy_zero]
  | succ fuel ih =>
    by_cases hlt : cur < stop
    · have hb : blocks (stop - cur) = blocks (stop - (cur + min blockBytes (stop - cur))) + 1 := by
        simp only [blocks, blockBytes]; omega
      simp only [xorLoop, hlt, if_true]
      rw [ih _ _ _ (by simp only [blockBytes]; omega), hb, advanceBy]
    · have h0 : stop - cur = 0 := by omega
      simp only [xorLoop, hlt, if_false, h0, blocks_zero, advanceBy_zero]

/-- A transform of `length` bytes advances `ceil(length/64)` times, whatever its range (rules R151 and R152). -/
theorem xorRange_fst (c : Instance) (B : List Byte) (start length : Nat) :
    (xorRange c B start length).1 = advanceBy (blocks length) c := by
  rw [xorRange, xorLoop_fst _ _ _ _ _ (by omega), Nat.add_sub_cancel_left]

/-- XFORM's advances. -/
theorem xformOn_fst (buf : List Byte) (c : Instance) :
    (xformOn buf c).1 = advanceBy (blocks (transformed c.init (.xform buf))) c := by
  cases h : c.init with
  | false => simp [xformOn, h, raiseError, transformed, statusCode]
  | true => simp [xformOn, h, respondBuffer, respond, xorRange_fst, transformed, statusCode]

/-- XFORMR's advances: none if it ends with an error. -/
theorem xformrOn_fst (buf : List Byte) (start length : Word) (c : Instance) :
    (xformrOn buf start length c).1 = advanceBy (blocks (transformed c.init (.xformr buf start length))) c := by
  cases h : c.init with
  | false => simp [xformrOn, h, raiseError, transformed, statusCode]
  | true =>
    by_cases hr : start.toNat + length.toNat ≤ buf.length
    · simp [xformrOn, h, inRange, hr, Nat.not_lt.mpr hr, respondBuffer, respond, xorRange_fst, transformed, statusCode]
    · simp [xformrOn, h, inRange, hr, Nat.lt_of_not_le hr, raiseError, transformed, statusCode]

/-- XFORMC of equal sizes does to its instance what XFORMR of its source does (rule R78). -/
theorem xformcOn_eq_xformrOn {src : List Byte} {dsize : Word} (h : src.length = dsize.toNat) (start length : Word) (c : Instance) :
    xformcOn src dsize start length c = xformrOn src start length c := by
  simp [xformcOn, xformrOn, h]

/-- XFORMC's advances: none if it ends with an error. -/
theorem xformcOn_fst (src : List Byte) (dsize start length : Word) (c : Instance) :
    (xformcOn src dsize start length c).1 = advanceBy (blocks (transformed c.init (.xformc src dsize start length))) c := by
  by_cases hs : src.length = dsize.toNat
  · rw [xformcOn_eq_xformrOn hs, xformrOn_fst]
    simp [transformed, statusCode, hs]
  · cases h : c.init <;> simp [xformcOn, h, hs, raiseError, transformed, statusCode]

/-! ### Advances and the carry -/

/-- `n` advances add `n` to the counter, mod 2^32 (rule R150). -/
theorem advanceBy_ctr (n : Nat) (c : Instance) : (advanceBy n c).ctr = c.ctr + BitVec.ofNat 32 n := by
  induction n with
  | zero => simp
  | succ n ih =>
    have hstep : (advance (advanceBy n c)).ctr = (advanceBy n c).ctr + 1#32 := by
      obtain ⟨h0, h⟩ | ⟨-, h⟩ := advance_cases (advanceBy n c)
      · rw [h, h0]
      · rw [h]
    rw [advanceBy_succ, hstep, ih, BitVec.ofNat_add, BitVec.add_assoc]

/-- `n` advances add to `S[13]` the carries that the counter makes on the way, and never write `S[14]` and `S[15]` (rules R150 and R153). -/
theorem advanceBy_nonce (n : Nat) (c : Instance) :
    (advanceBy n c).nonce[0] = c.nonce[0] + BitVec.ofNat 32 ((c.ctr.toNat + n) / 2 ^ 32) ∧
    (advanceBy n c).nonce[1] = c.nonce[1] ∧ (advanceBy n c).nonce[2] = c.nonce[2] := by
  induction n with
  | zero =>
    have h0 : (c.ctr.toNat + 0) / 2 ^ 32 = 0 := Nat.div_eq_of_lt c.ctr.isLt
    rw [h0]
    exact ⟨(BitVec.add_zero _).symm, rfl, rfl⟩
  | succ n ih =>
    obtain ⟨ih0, ih1, ih2⟩ := ih
    have hctr : (advanceBy n c).ctr.toNat = (c.ctr.toNat + n) % 2 ^ 32 := by
      rw [advanceBy_ctr, BitVec.toNat_add, BitVec.toNat_ofNat, Nat.add_mod_mod]
    rw [advanceBy_succ]
    obtain ⟨hw, h⟩ | ⟨hw, h⟩ := advance_cases (advanceBy n c)
    · have hcarry : (c.ctr.toNat + (n + 1)) / 2 ^ 32 = (c.ctr.toNat + n) / 2 ^ 32 + 1 := by
        have := congrArg BitVec.toNat hw
        simp only [BitVec.toNat_add, hctr, BitVec.toNat_ofNat] at this
        omega
      rw [h, hcarry]
      simp [ih0, ih1, ih2, BitVec.ofNat_add, BitVec.add_assoc]
    · have hcarry : (c.ctr.toNat + (n + 1)) / 2 ^ 32 = (c.ctr.toNat + n) / 2 ^ 32 := by
        have : ((advanceBy n c).ctr + 1#32).toNat ≠ 0 := fun h0 => hw (BitVec.eq_of_toNat_eq h0)
        simp only [BitVec.toNat_add, hctr, BitVec.toNat_ofNat] at this
        omega
      rw [h, hcarry]
      exact ⟨ih0, ih1, ih2⟩

end Sys2Proof.Machine

namespace Sys2Proof.Spec
open Sys2Proof.Machine

/-! ### The key and nonce invariant (rule R32) -/

/-- `d` holds the INIT, key and nonce of `c`, but for `k` carries into `S[13]`: all that a command other than SETSTATE may do to them. -/
def CarriedBy (k : Nat) (c d : Instance) : Prop :=
  d.init = c.init ∧ d.key = c.key ∧ d.nonce[0] = c.nonce[0] + BitVec.ofNat 32 k ∧ d.nonce[1] = c.nonce[1] ∧ d.nonce[2] = c.nonce[2]

theorem CarriedBy.refl (c : Instance) : CarriedBy 0 c c := ⟨rfl, rfl, (BitVec.add_zero _).symm, rfl, rfl⟩

/-- A transform that does nothing carries nothing. -/
@[simp] theorem carries_zero (c : Instance) : carries c 0 = 0 := Nat.div_eq_of_lt c.ctr.isLt

/-- The advances of a transform of `n` bytes carry `carries c n` times. -/
theorem carriedBy_advanceBy_blocks (n : Nat) (c : Instance) : CarriedBy (carries c n) c (advanceBy (blocks n) c) :=
  ⟨advanceBy_init .., advanceBy_key .., advanceBy_nonce ..⟩

/-- Every command but SETSTATE leaves INIT, key and nonce as they were, but for the carries of the bytes it transforms. -/
theorem carriedBy_answerOf {i : Instr} (hi : i.opcode ≠ .setstate) (c : Instance) :
    CarriedBy (carries c (transformed c.init i)) c (answerOf i c).1 := by
  cases i with
  | setstate key nonce ctr => exact absurd rfl hi
  | getctr =>
    simp only [answerOf, getctrOn_fst, transformed, ite_self, carries_zero]
    exact CarriedBy.refl c
  | setctr value =>
    simp only [answerOf, setctrOn_fst, transformed, ite_self, carries_zero]
    split <;> exact CarriedBy.refl c
  | xform buf => rw [answerOf, xformOn_fst]; exact carriedBy_advanceBy_blocks ..
  | xformr buf start length => rw [answerOf, xformrOn_fst]; exact carriedBy_advanceBy_blocks ..
  | xformc src dsize start length => rw [answerOf, xformcOn_fst]; exact carriedBy_advanceBy_blocks ..

/-- An uninitialised instance tracks the history in which nothing was packed. -/
theorem tracks_none {c : Instance} (h : c.init = false) : Tracks c ⟨none, 0⟩ := by simp [Tracks, h]

/-- Sending a response changes nothing that is tracked. -/
@[simp] theorem tracks_send (c : Instance) (q : Packet) (h : History) : Tracks (c.send q) h ↔ Tracks c h := Iff.rfl

/-- An instance into which SETSTATE packed its operands tracks the history that begins there. -/
theorem tracks_packed (key nonce : List Byte) (ctr : Word) (c : Instance) :
    Tracks (c.storeWords (pack key nonce ctr)).setInit ⟨some (pack key nonce ctr), 0⟩ := by
  refine ⟨by simp, fun W hW => ?_⟩
  obtain rfl : pack key nonce ctr = W := Option.some.inj hW
  exact ⟨rfl, rfl, rfl, rfl, fun _ _ _ => rfl, rfl, rfl, (BitVec.add_zero _).symm⟩

/-- An instance that has carried `k` times more tracks its history with `k` carries more. -/
theorem Tracks.carriedBy {c d : Instance} {h : History} {k : Nat} (hc : Tracks c h) (hd : CarriedBy k c d) :
    Tracks d ⟨h.packed, h.carries + k⟩ := by
  obtain ⟨hinit, hkey, hn0, hn1, hn2⟩ := hd
  obtain ⟨hpacked, hwords⟩ := hc
  refine ⟨by rw [hinit]; exact hpacked, fun W hW => ?_⟩
  obtain ⟨h0, h1, h2, h3, hk, h14, h15, h13⟩ := hwords W hW
  refine ⟨h0, h1, h2, h3, fun i hlo hhi => ?_, hn1.trans h14, hn2.trans h15, ?_⟩
  · rw [← hk i hlo hhi]
    obtain ⟨j, hj⟩ := Nat.exists_eq_add_of_le hlo
    have hj8 : j < 8 := by omega
    simp only [Fin.getElem_fin, hj, Instance.words_key _ j hj8, hkey]
  · calc d.words[13] = c.nonce[0] + BitVec.ofNat 32 k := hn0
      _ = W[13] + BitVec.ofNat 32 h.carries + BitVec.ofNat 32 k := congrArg (· + _) h13
      _ = W[13] + BitVec.ofNat 32 (h.carries + k) := by rw [BitVec.ofNat_add, BitVec.add_assoc]

/-- A decoded SETSTATE starts a new history if its lengths are right. -/
theorem History.after_setstate {p : Packet} {key nonce : List Byte} {ctr : Word} (hd : decode p = .ok (.setstate key nonce ctr))
    (h : History) (c : Instance) : h.after c (.command p) =
      if key.length = 32 ∧ nonce.length = 12 then ⟨some (pack key nonce ctr), 0⟩ else h := by
  simp only [History.after, hd]

/-- Any other decoded command adds its carries to the history. -/
theorem History.after_of_ne_setstate {p : Packet} {i : Instr} (hd : decode p = .ok i) (hi : i.opcode ≠ .setstate)
    (h : History) (c : Instance) : h.after c (.command p) = ⟨h.packed, h.carries + Spec.carries c (transformed c.init i)⟩ := by
  cases i with
  | setstate key nonce ctr => exact absurd rfl hi
  | _ => simp only [History.after, hd]

/-- A decoded command keeps the invariant. -/
theorem Tracks.answerOf {p : Packet} {i : Instr} {c : Instance} {h : History} (hd : decode p = .ok i) (hc : Tracks c h) :
    Tracks (answerOf i c).1 (h.after c (.command p)) := by
  by_cases hi : i.opcode = .setstate
  · obtain ⟨key, nonce, ctr, rfl⟩ := eq_setstate_of_opcode hi
    rw [History.after_setstate hd, Machine.answerOf]
    by_cases hl : key.length = 32 ∧ nonce.length = 12
    · rw [if_pos hl, setstateOn_of_lengths hl]
      exact tracks_packed key nonce ctr c
    · rw [if_neg hl, setstateOn_of_wrong_lengths hl]
      exact hc
  · rw [History.after_of_ne_setstate hd hi]
    exact hc.carriedBy (carriedBy_answerOf hi c)

/-- Every event served keeps the invariant. -/
theorem Tracks.serve {c : Instance} {h : History} (hc : Tracks c h) (port : Nat) (e : HostEvent) :
    Tracks (serve port c e) (h.after c e) := by
  cases e with
  | command p =>
    cases hd : decode p with
    | ok i => simpa only [Machine.serve, hd, tracks_send] using hc.answerOf hd
    | error r => simpa only [Machine.serve, History.after, hd, tracks_send] using hc
  | reset => exact tracks_none (Instance.resetOn_init c port)
  | resetDuring p => exact tracks_none (Instance.resetOn_init c port)

end Sys2Proof.Spec

namespace Sys2Proof.Machine

/-! ### Words without a value (rule R31) -/

/-- Where the words are readable, agreement is equality. -/
theorem Instance.AgreeWhereReadable.eq_of_init {c d : Instance} (h : c.AgreeWhereReadable d) (hc : c.init = true) : c = d := by
  obtain ⟨hinit, hresp, hdraws, hwords⟩ := h
  obtain ⟨hkey, hctr, hnonce⟩ := (Instance.words_eq_iff c d).mp (hwords hc)
  cases c; cases d
  simp_all only

theorem Instance.AgreeWhereReadable.refl (c : Instance) : c.AgreeWhereReadable c := ⟨rfl, rfl, rfl, fun _ => rfl⟩

/-- Instances that agree and are sent the same response go on agreeing. -/
theorem Instance.AgreeWhereReadable.send {c d : Instance} (h : c.AgreeWhereReadable d) (q : Packet) :
    (c.send q).AgreeWhereReadable (d.send q) := by
  obtain ⟨hinit, hresp, hdraws, hwords⟩ := h
  exact ⟨hinit, by simp only [send_responses, hresp], hdraws, hwords⟩

/-- SETSTATE writes every word that it makes readable. -/
theorem Instance.AgreeWhereReadable.setstate {c d : Instance} (h : c.AgreeWhereReadable d) (key nonce : List Byte) (ctr : Word) :
    (c.storeWords (pack key nonce ctr)).setInit.AgreeWhereReadable (d.storeWords (pack key nonce ctr)).setInit := by
  obtain ⟨-, hresp, hdraws, -⟩ := h
  exact ⟨rfl, hresp, hdraws, fun _ => rfl⟩

/-- A command gives instances that agree the same response, and they go on agreeing. -/
theorem Instance.AgreeWhereReadable.answerOf {c d : Instance} (h : c.AgreeWhereReadable d) (i : Instr) :
    (answerOf i c).1.AgreeWhereReadable (answerOf i d).1 ∧ (answerOf i c).2 = (answerOf i d).2 := by
  cases hc : c.init with
  | true =>
    obtain rfl := h.eq_of_init hc
    exact ⟨.refl _, rfl⟩
  | false =>
    have hd : d.init = false := h.1.symm.trans hc
    by_cases hi : i.opcode = .setstate
    · obtain ⟨key, nonce, ctr, rfl⟩ := eq_setstate_of_opcode hi
      by_cases hl : key.length = 32 ∧ nonce.length = 12
      · simp only [Machine.answerOf, setstateOn_of_lengths hl]
        exact ⟨h.setstate key nonce ctr, rfl⟩
      · simp only [Machine.answerOf, setstateOn_of_wrong_lengths hl]
        exact ⟨h, rfl⟩
    · simp only [answerOf_of_not_init hi hc, answerOf_of_not_init hi hd]
      exact ⟨h, rfl⟩

/-- A reset of instances that agree draws the same free values for both. -/
theorem Instance.AgreeWhereReadable.resetOn {c d : Instance} (h : c.AgreeWhereReadable d) (port : Nat) :
    (c.resetOn port).AgreeWhereReadable (d.resetOn port) := by
  obtain ⟨-, hresp, hdraws, -⟩ := h
  refine ⟨rfl, hresp, ?_, fun hinit => ?_⟩
  · simp only [resetOn_draws, hdraws]
  · cases hinit

/-- Serving the same event keeps instances in agreement. -/
theorem Instance.AgreeWhereReadable.serve {c d : Instance} (h : c.AgreeWhereReadable d) (port : Nat) (e : HostEvent) :
    (serve port c e).AgreeWhereReadable (serve port d e) := by
  cases e with
  | command p =>
    cases hp : decode p with
    | ok i =>
      obtain ⟨hfst, hsnd⟩ := h.answerOf i
      simp only [Machine.serve, hp, hsnd]
      exact hfst.send _
    | error r =>
      simp only [Machine.serve, hp]
      exact h.send _
  | reset => exact h.resetOn port
  | resetDuring p => exact h.resetOn port

/-- Related lists hold related elements at every index in range. -/
theorem forall₂_getElem? {α β : Type} {R : α → β → Prop} {l : List α} {l' : List β} (h : List.Forall₂ R l l') {k : Nat}
    (hk : k < l.length) : ∃ x y, l[k]? = some x ∧ l'[k]? = some y ∧ R x y :=
  ⟨l[k], l'[k]'(h.length_eq ▸ hk), List.getElem?_eq_getElem _, List.getElem?_eq_getElem _, h.get hk _⟩

/-- Related lists stay related when the same place is set to related elements. -/
theorem forall₂_set {α β : Type} {R : α → β → Prop} {l : List α} {l' : List β} (h : List.Forall₂ R l l') (k : Nat) {x : α} {y : β}
    (hxy : R x y) : List.Forall₂ R (l.set k x) (l'.set k y) := by
  induction h generalizing k with
  | nil => exact .nil
  | cons hab htail ih =>
    cases k with
    | zero => exact .cons hxy htail
    | succ k => exact .cons hab (ih k)

/-! ### The responses of the commands that are no transforms, and INIT -/

/-- The response of a command that is no transform is the same on instances that agree in INIT and in the counter. -/
theorem answerOf_snd_of_init_ctr {i : Instr} (hi : i.opcode = .setstate ∨ i.opcode = .getctr ∨ i.opcode = .setctr) {c d : Instance}
    (hinit : c.init = d.init) (hctr : c.ctr = d.ctr) : (answerOf i c).2 = (answerOf i d).2 := by
  cases i with
  | setstate key nonce ctr =>
    by_cases hl : key.length = 32 ∧ nonce.length = 12
    · simp only [answerOf, setstateOn_of_lengths hl, respond]
    · simp only [answerOf, setstateOn_of_wrong_lengths hl, raiseError]
  | getctr => cases hd : d.init <;> simp [answerOf, getctrOn, hinit.trans hd, hd, respond, raiseError, hctr]
  | setctr value => cases hd : d.init <;> simp [answerOf, setctrOn, hinit.trans hd, hd, respond, raiseError]
  | _ => simp [Instr.opcode] at hi

/-- A command completes where an instance executes it, and its response is the last there. -/
theorem exec_lastResponse {s : State} {port : Nat} {c : Instance} (h : s.Executing port c) (i : Instr) :
    ∃ t, exec i s = .next t ∧ t.lastResponse port = some (answerOf i c).2 :=
  ⟨_, by rw [exec_eq_runCommand, runCommand_of_executing h], State.lastResponse_commit h _ _⟩

/-- SETSTATE never clears INIT. -/
theorem setstateOn_init {key nonce : List Byte} {ctr : Word} {c : Instance} (h : c.init = true) :
    (setstateOn key nonce ctr c).1.init = true := by
  by_cases hl : key.length = 32 ∧ nonce.length = 12
  · simp only [setstateOn_of_lengths hl, respond, Instance.setInit_init]
  · simpa only [setstateOn_of_wrong_lengths hl, raiseError] using h

end Sys2Proof.Machine

namespace Sys2Proof.Proofs
open Sys2Proof.Machine Sys2Proof.Spec

/-- Settles O1: the reset state is `N_INST` copies of the reset instance. -/
theorem resetClearsInitAndHoldsConstants : Obligations.ResetClearsInitAndHoldsConstants := by
  refine ⟨rfl, List.length_replicate, Nat.le_add_left 1 _, fun c hc => ?_⟩
  obtain rfl := State.eq_reset_of_mem hc
  exact ⟨rfl, rfl, rfl, rfl, rfl, rfl⟩

/-- Settles O2: `words` takes `S[0..3]` from `constants`, not from a register. -/
theorem constantWordsAreHardwired : Obligations.ConstantWordsAreHardwired :=
  fun _ _ _ _ => ⟨rfl, rfl, rfl, rfl⟩

/-- Settles O8: nothing waits and nothing was sent. -/
theorem resetIsSafe : Obligations.ResetIsSafe := by
  refine ⟨?_, fun a ha => ?_, fun c hc q hq => ?_⟩
  · simp [State.reset, Config.nInst]
  · cases ha
  · obtain rfl := State.eq_reset_of_mem hc
    cases hq

/-- Settles O55: INIT is 0 and nothing was packed. -/
theorem resetInstancesTrackTheEmptyHistory : Obligations.ResetInstancesTrackTheEmptyHistory := by
  intro c hc
  obtain rfl := State.eq_reset_of_mem hc
  exact tracks_none rfl

/-- Settles O59: a step commits one instance, the one on the event's port. -/
theorem instancesShareNoState : Obligations.InstancesShareNoState := by
  intro s t a rest hb hs k hk
  obtain ⟨c, hx, rfl⟩ := step_next_of_inbox hb hs
  rw [State.commit_getElem? hx, if_neg hk]

/-- Settles O56: serving any event keeps the invariant of its own instance, and a step touches no other. -/
theorem everyStepKeepsTheKeyNonceInvariant : Obligations.EveryStepKeepsTheKeyNonceInvariant := by
  intro s t a rest c c' h hb hs hc hc' htracks
  refine ⟨?_, instancesShareNoState s t a rest hb hs⟩
  obtain ⟨d, hx, rfl⟩ := step_next_of_inbox hb hs
  obtain rfl : d = c := Option.some.inj (hx.2.symm.trans hc)
  rw [State.commit_getElem? hx, if_pos rfl] at hc'
  cases hc'
  exact htracks.serve a.port a.event

/-- Settles O60: both systems wait, or both serve the same event on instances that agree. -/
theorem noCommandReadsWordsWithoutAValue : Obligations.NoCommandReadsWordsWithoutAValue := by
  intro s s' hinbox hports hagree
  cases hb : s.inbox with
  | nil => exact ⟨s, s', step_of_inbox_nil hb, step_of_inbox_nil (hinbox ▸ hb), hinbox, hagree⟩
  | cons a rest =>
    obtain ⟨c, d, hc, hd, hcd⟩ := forall₂_getElem? hagree (hports a (by simp [hb]))
    exact ⟨_, _, step_of_inbox hb hc, step_of_inbox (hinbox ▸ hb) hd, by simp only [State.commit_inbox, hinbox],
      forall₂_set hagree a.port (hcd.serve a.port a.event)⟩

/-- Settles O29: GETCTR writes no register, SETCTR at most the counter. -/
theorem counterCommandsFrame : Obligations.CounterCommandsFrame := by
  intro i hi s t port c hx ht
  refine ⟨_, (answerOf i c).2, exec_next_of_executing hx ht, ?_⟩
  obtain rfl | ⟨value, rfl⟩ := hi
  · simp [answerOf]
  · cases hinit : c.init <;> simp [answerOf, hinit]

/-- Settles O30: SETSTATE cannot write the hardwired words, and INIT it only sets. -/
theorem setstateFrame : Obligations.SetstateFrame := by
  intro key nonce ctr s t port c hx ht
  refine ⟨_, (answerOf (.setstate key nonce ctr) c).2, exec_next_of_executing hx ht, fun i hi => ?_, setstateOn_init, ?_, ?_⟩
  · simp only [Fin.getElem_fin, Instance.words_constants _ i.val hi]
  · rw [Instance.send_draws, answerOf_draws]
  · rw [Instance.send_responses, answerOf_responses]

/-- Settles O31: of the instance, these commands' responses read INIT and the counter alone. -/
theorem nonTransformResponsesDoNotDependOnKeyOrNonce : Obligations.NonTransformResponsesDoNotDependOnKeyOrNonce := by
  intro i hi s s' port c c' hx hx' hinit hctr
  have hop : i.opcode = .setstate ∨ i.opcode = .getctr ∨ i.opcode = .setctr := by
    cases i with
    | setstate key nonce ctr => exact .inl rfl
    | getctr => exact .inr (.inl rfl)
    | setctr value => exact .inr (.inr rfl)
    | _ => exact hi.elim
  obtain ⟨t, ht, hq⟩ := exec_lastResponse hx i
  obtain ⟨t', ht', hq'⟩ := exec_lastResponse hx' i
  exact ⟨t, t', _, ht, ht', hq, by rw [hq', answerOf_snd_of_init_ctr hop hinit hctr]⟩

end Sys2Proof.Proofs
end

section
/-! PROOFS of the memory statements (20_memory.md): the idempotent commands, and the order of events at different ports. -/

namespace Sys2Proof.Machine

/-! ### Commands run twice (rule R46) -/

/-- What a commit leaves at its own port. -/
theorem State.eq_of_commit_getElem? {s : State} {port : Nat} {c d e : Instance} (h : s.Executing port c)
    (he : (s.commit port d).instances[port]? = some e) : e = d := by
  rw [State.commit_getElem? h, if_pos rfl] at he
  exact (Option.some.inj he).symm

/-- SETSTATE writes the instance if both lengths are right, and else leaves it. -/
theorem setstateOn_fst (key nonce : List Byte) (ctr : Word) (c : Instance) :
    (setstateOn key nonce ctr c).1 =
      if key.length = 32 ∧ nonce.length = 12 then (c.storeWords (pack key nonce ctr)).setInit else c := by
  by_cases hl : key.length = 32 ∧ nonce.length = 12
  · rw [setstateOn_of_lengths hl, if_pos hl, respond]
  · rw [setstateOn_of_wrong_lengths hl, if_neg hl, raiseError]

/-- A repeated SETSTATE packs the same words, or is the same error, whatever was sent between. -/
theorem setstateOn_repeat (key nonce : List Byte) (ctr : Word) (c : Instance) (q : Packet) :
    (setstateOn key nonce ctr ((setstateOn key nonce ctr c).1.send q)).1.words = (setstateOn key nonce ctr c).1.words ∧
    (setstateOn key nonce ctr ((setstateOn key nonce ctr c).1.send q)).1.init = (setstateOn key nonce ctr c).1.init := by
  by_cases hl : key.length = 32 ∧ nonce.length = 12
  · simp only [setstateOn_fst, if_pos hl, Instance.words_setInit, Instance.words_storeWords_pack, Instance.setInit_init, and_self]
  · simp only [setstateOn_fst, if_neg hl, Instance.words_send, Instance.send_init, and_self]

/-- A repeated SETCTR writes the same counter, or is the same error, whatever was sent between. -/
theorem setctrOn_repeat (value : Word) (c : Instance) (q : Packet) :
    (setctrOn value ((setctrOn value c).1.send q)).1.words = (setctrOn value c).1.words ∧
    (setctrOn value ((setctrOn value c).1.send q)).1.init = (setctrOn value c).1.init := by
  cases h : c.init with
  | true => simp [setctrOn_fst, h, Instance.words_eq_iff]
  | false => simp [setctrOn_fst, h]

/-! ### Runs to the inbox's end, and the part each port has in them (rules R48 and R49) -/

/-- The instances after one event is served. -/
def serveAt (instances : List Instance) (a : Arrival) : List Instance :=
  instances.modify a.port fun c => serve a.port c a.event

/-- Serving an event at one instance keeps their number. -/
@[simp] theorem serveAt_length (instances : List Instance) (a : Arrival) : (serveAt instances a).length = instances.length :=
  List.length_modify ..

/-- A step takes the event at the inbox's head and serves it. -/
theorem step_cons {instances : List Instance} {a : Arrival} (h : a.port < instances.length) (rest : List Arrival) :
    step ⟨instances, a :: rest⟩ = .next ⟨serveAt instances a, rest⟩ := by
  rw [step_of_inbox rfl (List.getElem?_eq_getElem h), State.commit, serveAt, List.modify_eq_set_getElem?]
  simp [List.getElem?_eq_getElem h]

/-- A run of as many steps as events wait serves them all, in their order. -/
theorem run_inbox (instances : List Instance) (inbox : List Arrival) (h : ∀ a ∈ inbox, a.port < instances.length) :
    Sys2Proof.core.run inbox.length (⟨instances, inbox⟩ : State) = .next ⟨inbox.foldl serveAt instances, []⟩ := by
  induction inbox generalizing instances with
  | nil => rfl
  | cons a rest ih =>
    obtain ⟨ha, hrest⟩ := List.forall_mem_cons.mp h
    have hstep : Sys2Proof.core.step (⟨instances, a :: rest⟩ : State) = .next ⟨serveAt instances a, rest⟩ := step_cons ha rest
    simp only [List.length_cons, Host.Core.run, hstep, List.foldl_cons]
    exact ih _ (by simpa only [serveAt_length] using hrest)

/-- What the events served leave at a port is the outcome of that port's own events, in their order. -/
theorem foldl_serveAt_getElem? (inbox : List Arrival) (instances : List Instance) (port : Nat) :
    (inbox.foldl serveAt instances)[port]? =
      instances[port]?.map fun c => (inbox.filter (fun a => a.port = port)).foldl (fun c a => serve port c a.event) c := by
  induction inbox generalizing instances with
  | nil => simp
  | cons a rest ih =>
    rw [List.foldl_cons, ih, serveAt, List.getElem?_modify]
    by_cases hp : a.port = port
    · subst hp
      simp [Function.comp_def]
    · simp [hp]

end Sys2Proof.Machine

namespace Sys2Proof.Proofs
open Sys2Proof.Machine

/-- Settles O28: the first run's outcome is what the second finds, and none of the three commands then changes it. -/
theorem counterAndStateCommandsAreIdempotent : Obligations.CounterAndStateCommandsAreIdempotent := by
  intro i hi s t u port c d e hx ht hx' hu he
  obtain rfl := exec_next_of_executing hx ht
  obtain rfl := exec_next_of_executing hx' hu
  obtain rfl := State.eq_of_commit_getElem? hx' he
  obtain rfl := State.eq_of_commit_getElem? hx hx'.2
  simp only [Instance.words_send, Instance.send_init]
  cases i with
  | setstate key nonce ctr =>
    obtain ⟨hwords, hinit⟩ := setstateOn_repeat key nonce ctr c (answerOf (.setstate key nonce ctr) c).2
    exact ⟨hwords, hinit, nofun⟩
  | getctr => simp [answerOf, getctrOn_fst]
  | setctr value =>
    obtain ⟨hwords, hinit⟩ := setctrOn_repeat value c (answerOf (.setctr value) c).2
    exact ⟨hwords, hinit, nofun⟩
  | _ => exact hi.elim

/-- Settles O57: both runs serve all their events, and each port's instance is the outcome of that port's events alone, which are the same
in both orders. -/
theorem anyInterleavingGivesTheSameResponses : Obligations.AnyInterleavingGivesTheSameResponses := by
  intro instances inbox inbox' hports hsame
  have hports' : ∀ a ∈ inbox', a.port < instances.length := fun a ha => by
    have hmem : a ∈ inbox.filter (fun b => b.port = a.port) := by simpa [hsame a.port] using ha
    exact hports a (List.mem_of_mem_filter hmem)
  have hend : inbox'.foldl serveAt instances = inbox.foldl serveAt instances :=
    List.ext_getElem? fun port => by rw [foldl_serveAt_getElem?, foldl_serveAt_getElem?, hsame port]
  exact ⟨_, run_inbox instances inbox hports, by rw [run_inbox instances inbox' hports', hend]⟩

end Sys2Proof.Proofs
end

section
/-! PROOFS of the encoding statements (30_encoding.md): the regions' byte order, the header's fields, the decoder against the encoder, the one
response of every command, the safety invariant, and the transform forms that agree. -/

namespace Sys2Proof
open Sys2Proof.Spec

/-! ### Regions, byte by byte (rule R63) -/

/-- Byte `k` of a word is its bits `[8k+7 : 8k]`. -/
theorem bytesLe_getElem? (w : Word) {k : Nat} (hk : k < 4) : (bytesLe w)[k]? = some (w.extractLsb' (8 * k) 8) := by
  interval_cases k <;> rfl

/-- Byte `i` of consecutive words stands in word `i div 4`. -/
theorem flatMap_bytesLe_getElem? (ws : List Word) (i : Nat) :
    (ws.flatMap bytesLe)[i]? = ws[i / 4]?.map fun w => w.extractLsb' (8 * (i % 4)) 8 := by
  induction ws generalizing i with
  | nil => rfl
  | cons w ws ih =>
    rw [List.flatMap_cons]
    by_cases hi : i < 4
    · rw [List.getElem?_append_left hi, bytesLe_getElem? w hi, Nat.div_eq_of_lt hi, Nat.mod_eq_of_lt hi]
      rfl
    · have hle : 4 ≤ i := Nat.le_of_not_lt hi
      have hdiv : i / 4 = (i - 4) / 4 + 1 := by omega
      have hmod : i % 4 = (i - 4) % 4 := by omega
      rw [List.getElem?_append_right hle, bytesLe_length, ih, hdiv, hmod, List.getElem?_cons_succ]

/-- The bytes read from a region of the right word count are those that its place in the payload carries. -/
theorem carries_regionBytes {payload ws : List Word} {off n : Nat} (hlen : ws.length = wordsFor n)
    (hws : ∀ k < wordsFor n, ws[k]? = payload[off + k]?) : Carries payload off (regionBytes n ws) := by
  intro i hi
  rw [regionBytes_length n ws hlen] at hi
  have hk : i / 4 < wordsFor n := by simp only [wordsFor]; omega
  rw [regionBytes, List.getElem?_take_of_lt hi, flatMap_bytesLe_getElem?, hws _ hk]

/-- A region that ends its payload is carried from the place where it begins. -/
theorem carries_regionBytes_append {ws front : List Word} {n : Nat} (hlen : ws.length = wordsFor n) :
    Carries (front ++ ws) front.length (regionBytes n ws) :=
  carries_regionBytes hlen fun k _ => by rw [List.getElem?_append_right (Nat.le_add_right ..), Nat.add_sub_cancel_left]

/-- The region of `B` carries `B`. -/
theorem carries_regionWords (B : List Byte) : Carries (regionWords B) 0 B := by
  have h := carries_regionBytes_append (front := []) (regionWords_length B)
  rwa [regionBytes_regionWords] at h

/-- The bytes of a region above its data are 0. -/
theorem regionWords_pad {B : List Byte} {i : Nat} {w : Word} (hi : B.length ≤ i) (hw : (regionWords B)[i / 4]? = some w) :
    w.extractLsb' (8 * (i % 4)) 8 = 0#8 := by
  have hbyte := flatMap_bytesLe_getElem? (regionWords B) i
  rw [hw, flatMap_regionWords, List.getElem?_append_right hi, Option.map_some] at hbyte
  exact List.eq_of_mem_replicate (List.mem_of_getElem? hbyte)

/-! ### The header's fields (rules R61 and R62) -/

/-- OPC as the spec's arithmetic reads it from the header. -/
theorem Packet.toNat_opc (p : Packet) : p.opc.toNat = Spec.opc p := by
  simp [Packet.opc, Spec.opc, BitVec.extractLsb'_toNat]

theorem Packet.klen_eq (p : Packet) : p.klen = Spec.klen p := by
  simp [Packet.klen, Spec.klen, BitVec.extractLsb'_toNat, Nat.shiftRight_eq_div_pow]

theorem Packet.nlen_eq (p : Packet) : p.nlen = Spec.nlen p := by
  simp [Packet.nlen, Spec.nlen, BitVec.extractLsb'_toNat, Nat.shiftRight_eq_div_pow]

theorem Packet.klen_le (p : Packet) : p.klen ≤ 255 := Nat.le_of_lt_succ (BitVec.isLt _)
theorem Packet.nlen_le (p : Packet) : p.nlen ≤ 255 := Nat.le_of_lt_succ (BitVec.isLt _)

/-- A size field holds at most `MAX_BUF` (20_memory.md rule R41). -/
theorem toNat_le_maxBuf (size : Word) : size.toNat ≤ Config.maxBuf := Nat.le_of_lt_succ size.isLt

/-- The opcode map reads back every opcode's code. -/
@[simp] theorem Opcode.ofByte_code (op : Opcode) : Opcode.ofByte op.code = some op := by cases op <;> rfl

/-- A byte that the opcode map reads is that opcode's code. -/
theorem Opcode.eq_code_of_ofByte {b : Byte} {op : Opcode} (h : Opcode.ofByte b = some op) : b = op.code := by
  obtain ⟨hnone, -⟩ | ⟨op', hsome, hb⟩ := Opcode.ofByte_cases b
  · cases hnone.symm.trans h
  · cases hsome.symm.trans h
    exact hb

/-- The assigned codes are 1 to 6. -/
theorem Opcode.code_range (op : Opcode) : 1 ≤ op.code.toNat ∧ op.code.toNat ≤ 6 := by cases op <;> decide

/-- The other values of OPC are reserved. -/
theorem Opcode.ofByte_of_reserved {b : Byte} (h : b.toNat = 0 ∨ 7 ≤ b.toNat) : Opcode.ofByte b = none := by
  obtain ⟨hnone, -⟩ | ⟨op, -, rfl⟩ := Opcode.ofByte_cases b
  · exact hnone
  · have := op.code_range
    omega

/-- A packet that decodes has its command's code in OPC. -/
theorem opc_of_decode_ok {p : Packet} {i : Instr} (h : decode p = .ok i) : Spec.opc p = i.opcode.code.toNat := by
  obtain ⟨hop, -⟩ := decode_ok h
  rw [← Opcode.eq_code_of_ofByte hop, Packet.toNat_opc]

/-! ### Decoding what was encoded (rules R65 to R73) -/

/-- The payload's decoder, by opcode: what `decode` does once the header's tests have passed. -/
def decodePayload (p : Packet) : Opcode → Except Illegal Instr
  | .setstate => decodeSetstate p.klen p.nlen p.payload
  | .getctr => decodeGetctr p.payload
  | .setctr => decodeSetctr p.payload
  | .xform => decodeXform p.payload
  | .xformr => decodeXformr p.payload
  | .xformc => decodeXformc p.payload

/-- A packet whose header passes the tests of rule R73 decodes as its payload does. -/
theorem decode_eq_decodePayload {p : Packet} {op : Opcode} (hop : p.opc = op.code) (hres : p.reserved = 0#8)
    (hlen : op ≠ .setstate → p.lengthField = 0#16) : decode p = decodePayload p op := by
  have hlen' : ¬ (op ≠ .setstate ∧ p.lengthField ≠ 0#16) := fun ⟨hne, h⟩ => h (hlen hne)
  simp only [decode, hop, Opcode.ofByte_code, hres, ne_eq, not_true, if_false, hlen']
  cases op <;> rfl

/-- Every encoded command has the header of rule R61. -/
theorem encode_headerFields (i : Instr) : Laws.HeaderFields.Statement i := by
  cases i with
  | setstate key nonce ctr => exact Laws.HeaderFields.setstate key nonce ctr
  | getctr => exact Laws.HeaderFields.getctr
  | setctr value => exact Laws.HeaderFields.setctr value
  | xform buf => exact Laws.HeaderFields.xform buf
  | xformr buf start length => exact Laws.HeaderFields.xformr buf start length
  | xformc src dsize start length => exact Laws.HeaderFields.xformc src dsize start length

/-- An encoded command decodes as its payload does. -/
theorem decode_encode (i : Instr) : decode (encode i) = decodePayload (encode i) i.opcode := by
  obtain ⟨hop, hres, hlen⟩ := encode_headerFields i
  exact decode_eq_decodePayload hop hres hlen

/-- The length fields of an encoded SETSTATE. -/
theorem encode_setstate_lengths {key nonce : List Byte} (hk : key.length ≤ 255) (hn : nonce.length ≤ 255) (ctr : Word) :
    (encode (.setstate key nonce ctr)).klen = key.length ∧ (encode (.setstate key nonce ctr)).nlen = nonce.length := by
  have h := Laws.HeaderFields.headerWord_bytes .setstate key.length nonce.length
  simp only [bytesLe, List.cons.injEq] at h
  obtain ⟨-, hklen, hnlen, -⟩ := h
  simp only [Packet.klen, Packet.nlen, encode, hklen, hnlen, BitVec.toNat_ofNat]
  omega

/-- A size field of at most `MAX_BUF` bytes is their number. -/
theorem toNat_sizeWord {B : List Byte} (h : B.length ≤ Config.maxBuf) : (sizeWord B).toNat = B.length := by
  have hlt : B.length < 2 ^ 32 := Nat.lt_succ_of_le h
  rw [sizeWord, BitVec.toNat_ofNat, Nat.mod_eq_of_lt hlt]

/-- The regions of a key and a nonce, and the counter word after them, are read back. -/
theorem decodeSetstate_regionWords (key nonce : List Byte) (ctr : Word) :
    decodeSetstate key.length nonce.length (regionWords key ++ regionWords nonce ++ [ctr]) = .ok (.setstate key nonce ctr) := by
  have hdrop : (regionWords key ++ regionWords nonce ++ [ctr]).drop (wordsFor key.length + wordsFor nonce.length) = [ctr] :=
    List.drop_left' (by simp)
  rw [decodeSetstate, hdrop]
  simp [List.append_assoc, List.take_left', List.drop_left']

/-- The payload of every well-formed command is read back. -/
theorem decodePayload_encode {i : Instr} (h : i.wf = true) : decodePayload (encode i) i.opcode = .ok i := by
  cases i with
  | setstate key nonce ctr =>
    simp only [Instr.wf, Bool.and_eq_true, decide_eq_true_eq] at h
    obtain ⟨hklen, hnlen⟩ := encode_setstate_lengths h.1 h.2 ctr
    simp only [Instr.opcode, decodePayload, hklen, hnlen]
    exact decodeSetstate_regionWords key nonce ctr
  | getctr => rfl
  | setctr value => rfl
  | xform buf =>
    have hsize := toNat_sizeWord (of_decide_eq_true h)
    simp [Instr.opcode, decodePayload, encode, decodeXform, hsize]
  | xformr buf start length =>
    have hsize := toNat_sizeWord (of_decide_eq_true h)
    simp [Instr.opcode, decodePayload, encode, decodeXformr, hsize]
  | xformc src dsize start length =>
    have hsize := toNat_sizeWord (of_decide_eq_true h)
    simp [Instr.opcode, decodePayload, encode, decodeXformc, hsize]

/-! ### The operands of a decoded command (rules R65 to R72) -/

/-- A buffer read from the region that ends a transform's payload, the operand words `front` before it. -/
theorem sizedRegion_fields {size : Word} {region : List Word} (hlen : region.length = wordsFor size.toNat) (front : List Word) :
    (regionBytes size.toNat region).length ≤ Config.maxBuf ∧ size.toNat = (regionBytes size.toNat region).length ∧
      Carries (front ++ region) front.length (regionBytes size.toNat region) := by
  have hn := regionBytes_length size.toNat region hlen
  exact ⟨hn.trans_le (toNat_le_maxBuf size), hn.symm, carries_regionBytes_append hlen⟩

/-- Key and nonce regions, cut from a payload that has one word after them, are well formed and carried one after the other. -/
theorem setstate_wf_operandsOf {p : Packet} {ctr : Word}
    (hctr : p.payload.drop (wordsFor p.klen + wordsFor p.nlen) = [ctr]) :
    let i : Instr := .setstate (regionBytes p.klen (p.payload.take (wordsFor p.klen)))
      (regionBytes p.nlen ((p.payload.drop (wordsFor p.klen)).take (wordsFor p.nlen))) ctr
    i.wf = true ∧ OperandsOf p i := by
  have hcount : p.payload.length - (wordsFor p.klen + wordsFor p.nlen) = 1 := by
    rw [← List.length_drop, hctr, List.length_singleton]
  have hkey : (p.payload.take (wordsFor p.klen)).length = wordsFor p.klen := by
    rw [List.length_take]; omega
  have hnonce : ((p.payload.drop (wordsFor p.klen)).take (wordsFor p.nlen)).length = wordsFor p.nlen := by
    rw [List.length_take, List.length_drop]; omega
  have hkn := regionBytes_length p.klen _ hkey
  have hnn := regionBytes_length p.nlen _ hnonce
  refine ⟨?_, hkn.trans p.klen_eq, hnn.trans p.nlen_eq, ?_, ?_, ?_⟩
  · simp only [Instr.wf, hkn, hnn, p.klen_le, p.nlen_le, decide_true, Bool.and_self]
  · exact carries_regionBytes hkey fun k hk => by rw [List.getElem?_take_of_lt hk, Nat.zero_add]
  · rw [← Packet.klen_eq]
    exact carries_regionBytes hnonce fun k hk => by rw [List.getElem?_take_of_lt hk, List.getElem?_drop]; rfl
  · have hhead := List.getElem?_drop (xs := p.payload) (i := wordsFor p.klen + wordsFor p.nlen) (j := 0)
    rw [hctr, Packet.klen_eq, Packet.nlen_eq] at hhead
    exact hhead.symm

end Sys2Proof

namespace Sys2Proof.Machine

/-- A command completes where an instance executes it, with the commit of its answer. -/
theorem exec_of_executing {s : State} {port : Nat} {c : Instance} (h : s.Executing port c) (i : Instr) :
    exec i s = .next (s.commit port ((answerOf i c).1.send (answerOf i c).2)) := by
  rw [exec_eq_runCommand, runCommand_of_executing h]

/-! ### Legal responses (rules R74 and R200) -/

/-- A status word is one of the six codes, zeros above it. -/
theorem Status.toNat_word_le (st : Status) : st.word.toNat ≤ 5 := by cases st <;> decide

/-- A status word alone is a legal response. -/
theorem legalResponse_status (st : Status) : LegalResponse ⟨st.word, []⟩ := ⟨st.toNat_word_le, fun _ => rfl⟩

/-- Every command's response is legal. -/
theorem answerOf_legalResponse (i : Instr) (c : Instance) : LegalResponse (answerOf i c).2 := by
  obtain hok | ⟨st, herr⟩ := answerOf_ok_or_error i c
  · exact ⟨by simp [hok], fun hne => absurd hok hne⟩
  · rw [herr]
    exact legalResponse_status st

/-- An instance that sends a legal response still has sent legal responses only. -/
theorem Instance.send_legalResponse {c : Instance} (hc : ∀ q ∈ c.responses, LegalResponse q) {r : Packet} (hr : LegalResponse r) :
    ∀ q ∈ (c.send r).responses, LegalResponse q := by
  intro q hq
  rw [Instance.send_responses, List.mem_append, List.mem_singleton] at hq
  obtain hq | rfl := hq
  · exact hc q hq
  · exact hr

/-- Serving an event adds no illegal response. -/
theorem serve_legalResponse {c : Instance} (hc : ∀ q ∈ c.responses, LegalResponse q) (port : Nat) (e : HostEvent) :
    ∀ q ∈ (serve port c e).responses, LegalResponse q := by
  cases e with
  | command p =>
    cases hd : decode p with
    | ok i =>
      simp only [serve, hd]
      exact Instance.send_legalResponse (by rwa [answerOf_responses]) (answerOf_legalResponse i c)
    | error r =>
      simp only [serve, hd]
      exact Instance.send_legalResponse hc (legalResponse_status .illegalCommand)
  | reset => exact hc
  | resetDuring p => exact hc

/-- Committing an instance whose responses are legal keeps the system safe. -/
theorem State.Inv.commit {s : State} (h : s.Inv) (port : Nat) {c : Instance} (hc : ∀ q ∈ c.responses, LegalResponse q) :
    (s.commit port c).Inv := by
  obtain ⟨hone, hports, hlegal⟩ := h
  refine ⟨?_, fun a ha => ?_, fun d hd => ?_⟩
  · simpa only [State.commit_instances, List.length_set] using hone
  · simpa only [State.commit_instances, List.length_set] using hports a (List.mem_of_mem_tail ha)
  · obtain hd | rfl := List.mem_or_eq_of_mem_set hd
    · exact hlegal d hd
    · exact hc

/-! ### The transform forms (rule R78) -/

/-- XFORM does what XFORMR does on the whole buffer. -/
theorem xformOn_eq_xformrOn {buf : List Byte} (h : buf.length ≤ Config.maxBuf) :
    xformOn buf = xformrOn buf 0 (BitVec.ofNat 32 buf.length) := by
  have hlen : (BitVec.ofNat 32 buf.length).toNat = buf.length := toNat_sizeWord h
  funext c
  simp [xformOn, xformrOn, inRange, hlen]

end Sys2Proof.Machine

namespace Sys2Proof.Proofs
open Sys2Proof.Machine Sys2Proof.Spec

/-- Settles O9: a step waits, or commits an instance that was sent at most one response more, a legal one. -/
theorem everyStepKeepsTheSystemSafe : Obligations.EveryStepKeepsTheSystemSafe := by
  intro s t hs ht
  obtain ⟨-, rfl⟩ | ⟨a, rest, c, -, hc, rfl⟩ := step_next ht
  · exact hs
  · have ⟨_, _, hlegal⟩ := hs
    exact hs.commit a.port (serve_legalResponse (hlegal c (List.mem_of_getElem? hc)) a.port a.event)

/-- Settles O10: the header's tests pass, and then each payload is read back as it was written. -/
theorem decodeEncodeRoundTrip : Obligations.DecodeEncodeRoundTrip :=
  fun i hwf => (decode_encode i).trans (decodePayload_encode hwf)

/-- Settles O6: a command commits its instance, to which one response was added, and nothing else. -/
theorem everyCommandIsAnsweredOnce : Obligations.EveryCommandIsAnsweredOnce := by
  intro i s port c hx
  refine ⟨_, (answerOf i c).1.send (answerOf i c).2, (answerOf i c).2, exec_of_executing hx i, rfl, ?_, ?_, ?_,
    List.length_set, fun k hk => ?_⟩
  · rw [State.commit_getElem? hx, if_pos rfl]
  · rw [Instance.send_responses, answerOf_responses]
  · rw [Instance.send_draws, answerOf_draws]
  · rw [State.commit_getElem? hx, if_neg hk]

/-- Settles O11: each payload is taken apart where the decoder takes it apart, and each region is carried where it begins. -/
theorem decodedOperandsAreThePacketsFields : Obligations.DecodedOperandsAreThePacketsFields := by
  intro p i h
  obtain ⟨-, -, -, hpayload⟩ := decode_ok h
  cases i with
  | setstate key nonce ctr =>
    obtain ⟨hctr, rfl, rfl⟩ := hpayload
    exact setstate_wf_operandsOf hctr
  | getctr => exact ⟨rfl, trivial⟩
  | setctr value => exact ⟨rfl, by simp [OperandsOf, hpayload]⟩
  | xform buf =>
    obtain ⟨size, region, hp, hlen, rfl⟩ := hpayload
    obtain ⟨hwf, hsize, hcarries⟩ := sizedRegion_fields hlen [size]
    simp only [OperandsOf, hp]
    exact ⟨decide_eq_true hwf, congrArg some hsize, hcarries⟩
  | xformr buf start length =>
    obtain ⟨size, region, hp, hlen, rfl⟩ := hpayload
    obtain ⟨hwf, hsize, hcarries⟩ := sizedRegion_fields hlen [size, start, length]
    simp only [OperandsOf, hp]
    exact ⟨decide_eq_true hwf, congrArg some hsize, rfl, rfl, hcarries⟩
  | xformc src dsize start length =>
    obtain ⟨size, region, hp, hlen, rfl⟩ := hpayload
    obtain ⟨hwf, hsize, hcarries⟩ := sizedRegion_fields hlen [size, dsize, start, length]
    simp only [OperandsOf, hp]
    exact ⟨decide_eq_true hwf, congrArg some hsize, rfl, rfl, rfl, hcarries⟩

/-- Settles O12: the opcode map knows the codes 1 to 6 and no others, and what decodes has its command's code. -/
theorem opcSelectsTheCommand : Obligations.OpcSelectsTheCommand := by
  refine fun p => ⟨fun hres => ?_, fun i hd => ?_⟩
  · rw [← Packet.toNat_opc] at hres
    simp only [decode, Opcode.ofByte_of_reserved hres]
  · have hopc := opc_of_decode_ok hd
    cases i <;> exact hopc

/-- Settles O14: the region's bytes are the data and then zeros, and byte `i` of any words stands in word `i div 4`. -/
theorem regionsPackBytesLittleEndian : Obligations.RegionsPackBytesLittleEndian :=
  ⟨fun B => ⟨regionWords_length B, carries_regionWords B, fun _ _ => regionWords_pad⟩,
    fun n ws hlen => ⟨regionBytes_length n ws hlen, carries_regionBytes_append (front := []) hlen⟩⟩

/-- Settles O48: the forms run the same body on the instance, so they agree on every state. -/
theorem transformFormsAgree : Obligations.TransformFormsAgree := by
  intro B start length s hB
  have hsize : B.length = (BitVec.ofNat 32 B.length).toNat := (toNat_sizeWord hB).symm
  simp only [exec_eq_runCommand, answerOf, xformOn_eq_xformrOn hB, funext (xformcOn_eq_xformrOn hsize start length), and_self]

/-- Settles O15: the encodings are computed, and the round trip decodes them. -/
theorem workedEncodingsOfTheSpec : Obligations.WorkedEncodingsOfTheSpec := by
  unfold Obligations.WorkedEncodingsOfTheSpec
  intro key setstate setstatePacket xform xformPacket
  have hsetstate : encode setstate = setstatePacket := by decide
  have hxform : encode xform = xformPacket := by decide
  have hgetctr : encode .getctr = ⟨0x00000002, []⟩ := by decide
  exact ⟨hsetstate, hsetstate ▸ decodeEncodeRoundTrip setstate rfl, hxform, hxform ▸ decodeEncodeRoundTrip xform rfl,
    hgetctr, hgetctr ▸ decodeEncodeRoundTrip .getctr rfl⟩

end Sys2Proof.Proofs
end

section
/-! PROOFS of the state builder statements (41_state_builder.md): the layout of `pack`, and what SETSTATE, GETCTR and SETCTR complete with. -/

namespace Sys2Proof.Machine

/-! ### The layout of `pack` (rules R100 and R101) -/

/-- Byte `k` of the little-endian word at `i` is byte `i + k` of the list it was read from. -/
theorem le32At_byte {B : List Byte} {i k : Nat} (hk : k < 4) (h : i + k < B.length) :
    (le32At B i).extractLsb' (8 * k) 8 = B[i + k] := by
  have hbyte : (bytesLe (le32At B i))[k]? = some B[i + k] := by
    rw [le32At, bytesLe_le32, ← List.getD_eq_getElem B 0#8 h]
    interval_cases k <;> rfl
  exact Option.some.inj ((bytesLe_getElem? _ hk).symm.trans hbyte)

/-- Word `4 + i` of `pack` is the key's word at byte `4i`. -/
theorem pack_keyWord (key nonce : List Byte) (ctr : Word) {i : Nat} (hi : i < 8) :
    (pack key nonce ctr)[4 + i]? = some (le32At key (4 * i)) := by
  interval_cases i <;> rfl

/-- Word `13 + j` of `pack` is the nonce's word at byte `4j`. -/
theorem pack_nonceWord (key nonce : List Byte) (ctr : Word) {j : Nat} (hj : j < 3) :
    (pack key nonce ctr)[13 + j]? = some (le32At nonce (4 * j)) := by
  interval_cases j <;> rfl

/-- Every byte of a 32-byte key stands in `pack`. -/
theorem pack_keyByte {key : List Byte} (hkey : key.length = 32) (nonce : List Byte) (ctr : Word) {i k : Nat} (hi : i < 8) (hk : k < 4) :
    key[4 * i + k]? = (pack key nonce ctr)[4 + i]?.map fun w => w.extractLsb' (8 * k) 8 := by
  have h : 4 * i + k < key.length := by omega
  rw [pack_keyWord key nonce ctr hi, Option.map_some, le32At_byte hk h, List.getElem?_eq_getElem h]

/-- Every byte of a 12-byte nonce stands in `pack`. -/
theorem pack_nonceByte (key : List Byte) {nonce : List Byte} (hnonce : nonce.length = 12) (ctr : Word) {j k : Nat} (hj : j < 3) (hk : k < 4) :
    nonce[4 * j + k]? = (pack key nonce ctr)[13 + j]?.map fun w => w.extractLsb' (8 * k) 8 := by
  have h : 4 * j + k < nonce.length := by omega
  rw [pack_nonceWord key nonce ctr hj, Option.map_some, le32At_byte hk h, List.getElem?_eq_getElem h]

/-- Lists of `4n` bytes that agree in each byte of each of their `n` words are equal. -/
theorem eq_of_wordBytes {B B' : List Byte} {n : Nat} (hB : B.length = 4 * n) (hB' : B'.length = 4 * n)
    (h : ∀ i k, i < n → k < 4 → B[4 * i + k]? = B'[4 * i + k]?) : B = B' := by
  refine List.ext_getElem? fun p => ?_
  by_cases hp : p < 4 * n
  · have := h (p / 4) (p % 4) (by omega) (Nat.mod_lt p (by decide))
    rwa [Nat.div_add_mod] at this
  · rw [List.getElem?_eq_none (by omega), List.getElem?_eq_none (by omega)]

/-! ### What the three commands answer on success (rules R102, R104 and R106) -/

/-- GETCTR on an initialised instance answers `S[12]`. -/
theorem getctrOn_of_init {c : Instance} (h : c.init = true) : getctrOn c = respond c [c.words[12]] := requireInit_of_init h _

/-- SETCTR on an initialised instance writes `S[12]`. -/
theorem setctrOn_of_init {c : Instance} (h : c.init = true) (value : Word) : setctrOn value c = respond (c.setCtr value) [] :=
  requireInit_of_init h _

/-- A successful SETSTATE leaves the packed words and INIT = 1 on its instance, whatever was there. -/
theorem exec_setstate_getElem? {key nonce : List Byte} {ctr : Word} {s t : State} {port : Nat} {c d : Instance} (hx : s.Executing port c)
    (hlen : key.length = 32 ∧ nonce.length = 12) (ht : exec (.setstate key nonce ctr) s = .next t) (hd : t.instances[port]? = some d) :
    d.words = pack key nonce ctr ∧ d.init = true := by
  obtain rfl := exec_next_of_executing hx ht
  obtain rfl := State.eq_of_commit_getElem? hx hd
  simp [answerOf, setstateOn_of_lengths hlen, respond]

end Sys2Proof.Machine

namespace Sys2Proof.Proofs
open Sys2Proof.Machine

/-- Settles O22: the key and nonce words are read little-endian, byte by byte, from the operands. -/
theorem packLaysOutKeyCounterAndNonce : Obligations.PackLaysOutKeyCounterAndNonce := by
  intro key nonce ctr hkey hnonce
  exact ⟨rfl, rfl, rfl, rfl, rfl, fun _ _ => pack_keyByte hkey nonce ctr, fun _ _ => pack_nonceByte key hnonce ctr⟩

/-- Settles O23: every byte of the operands can be read back from the packed words. -/
theorem packIsInjective : Obligations.PackIsInjective := by
  intro key key' nonce nonce' ctr ctr' hkey hkey' hnonce hnonce' h
  refine ⟨eq_of_wordBytes (n := 8) hkey hkey' fun i k hi hk => ?_, eq_of_wordBytes (n := 3) hnonce hnonce' fun j k hj hk => ?_, ?_⟩
  · rw [pack_keyByte hkey nonce ctr hi hk, h, pack_keyByte hkey' nonce' ctr' hi hk]
  · rw [pack_nonceByte key hnonce ctr hj hk, h, pack_nonceByte key' hnonce' ctr' hj hk]
  · exact congrArg (fun W : Vector Word 16 => W[12]) h

/-- Settles O24: the lengths pass their tests, so the packed words are stored and INIT is set. -/
theorem setstateLoadsTheWorkingState : Obligations.SetstateLoadsTheWorkingState := by
  intro key nonce ctr s port c hx hkey hnonce
  have ht := exec_of_executing hx (.setstate key nonce ctr)
  rw [answerOf, setstateOn_of_lengths ⟨hkey, hnonce⟩] at ht
  exact ⟨_, ht, rfl, rfl, rfl, rfl⟩

/-- Settles O25: both instances hold the packed operands, with INIT = 1. -/
theorem reinitialisationIsComplete : Obligations.ReinitialisationIsComplete := by
  intro key nonce ctr s s' t t' port port' c c' d d' hx hx' hkey hnonce ht ht' hd hd'
  obtain ⟨hwords, hinit⟩ := exec_setstate_getElem? hx ⟨hkey, hnonce⟩ ht hd
  obtain ⟨hwords', hinit'⟩ := exec_setstate_getElem? hx' ⟨hkey, hnonce⟩ ht' hd'
  exact ⟨hwords.trans hwords'.symm, hinit.trans hinit'.symm⟩

/-- Settles O26: the instance passes the INIT test, and only its response is added. -/
theorem getctrReturnsTheCounter : Obligations.GetctrReturnsTheCounter := by
  intro s port c hx hinit
  rw [exec_of_executing hx, answerOf, getctrOn_of_init hinit]
  rfl

/-- Settles O27: the instance passes the INIT test, and the counter is the one register written. -/
theorem setctrWritesTheCounterAlone : Obligations.SetctrWritesTheCounterAlone := by
  intro value s port c hx hinit
  rw [exec_of_executing hx, answerOf, setctrOn_of_init hinit]
  rfl

end Sys2Proof.Proofs
end

section
/-! PROOFS of the block function statements (42_block_function.md). A lane is one QRX on a quad of indices: what it puts in the words at its quad,
what it leaves elsewhere, that it is a bijection, and that lanes on disjoint quads commute. The rounds are folds of lanes. -/

namespace Sys2Proof.Machine

/-! ### Lanes (rule R122) -/

/-- The four indices of one QRX, in the order of the rule's `a`, `b`, `c`, `d`. -/
abbrev Quad : Type := Fin 16 × Fin 16 × Fin 16 × Fin 16

/-- A quad's indices as a list. -/
def Quad.indices (q : Quad) : List (Fin 16) := [q.1, q.2.1, q.2.2.1, q.2.2.2]

/-- QRX on the words at a quad. -/
def lane (X : Vector Word 16) (q : Quad) : Vector Word 16 := qrx X q.1 q.2.1 q.2.2.1 q.2.2.2

/-- The quarter-round on a tuple. -/
def quarterRoundOn (w : Word × Word × Word × Word) : Word × Word × Word × Word := quarterRound w.1 w.2.1 w.2.2.1 w.2.2.2

/-- The words of a state at a quad. -/
def wordsAt (X : Vector Word 16) (q : Quad) : Word × Word × Word × Word := (X[q.1], X[q.2.1], X[q.2.2.1], X[q.2.2.2])

/-- The words at a quad agree exactly when each index of the quad has the same word. -/
theorem wordsAt_eq_iff {X Y : Vector Word 16} {q : Quad} : wordsAt X q = wordsAt Y q ↔ ∀ m ∈ q.indices, X[m] = Y[m] := by
  simp only [wordsAt, Quad.indices, Prod.mk.injEq, List.forall_mem_cons, List.not_mem_nil, false_imp_iff, implies_true, and_true]

/-- Two states that agree at a quad and off it are equal. -/
theorem eq_of_wordsAt {X Y : Vector Word 16} {q : Quad} (hq : wordsAt X q = wordsAt Y q) (h : ∀ m, m ∉ q.indices → X[m] = Y[m]) : X = Y := by
  refine Vector.ext fun m hm => ?_
  by_cases hmem : (⟨m, hm⟩ : Fin 16) ∈ q.indices
  · exact wordsAt_eq_iff.mp hq _ hmem
  · exact h _ hmem

/-- A lane puts the quarter-round of the words at its quad there. -/
theorem wordsAt_lane {q : Quad} (hq : q.indices.Nodup) (X : Vector Word 16) : wordsAt (lane X q) q = quarterRoundOn (wordsAt X q) := by
  obtain ⟨i, j, k, l⟩ := q
  simp only [Quad.indices, List.nodup_cons, List.mem_cons, not_or, Fin.ext_iff] at hq
  obtain ⟨⟨hij, hik, hil, -⟩, ⟨hjk, hjl, -⟩, ⟨hkl, -⟩, -⟩ := hq
  simp only [wordsAt, lane, qrx, quarterRoundOn, Fin.getElem_fin, Vector.getElem_set, Ne.symm hij, Ne.symm hik, Ne.symm hil,
    Ne.symm hjk, Ne.symm hjl, Ne.symm hkl, if_true, if_false]

/-- A lane leaves the words off its quad. -/
theorem lane_getElem_of_notMem {q : Quad} {m : Fin 16} (hm : m ∉ q.indices) (X : Vector Word 16) : (lane X q)[m] = X[m] := by
  simp only [Quad.indices, List.mem_cons, List.not_mem_nil, or_false, not_or, Fin.ext_iff, eq_comm (a := m.val)] at hm
  obtain ⟨hi, hj, hk, hl⟩ := hm
  simp only [lane, qrx, Fin.getElem_fin, Vector.getElem_set, hi, hj, hk, hl, if_false]

/-- A lane leaves the words at a quad that is disjoint from its own. -/
theorem wordsAt_lane_of_disjoint {q r : Quad} (h : q.indices.Disjoint r.indices) (X : Vector Word 16) : wordsAt (lane X r) q = wordsAt X q :=
  wordsAt_eq_iff.mpr fun _ hm => lane_getElem_of_notMem (h hm) X

/-- Lanes on disjoint quads commute: each reads and writes only its own words (rule R127). -/
theorem lane_comm {q r : Quad} (hq : q.indices.Nodup) (hr : r.indices.Nodup) (h : q.indices.Disjoint r.indices) (X : Vector Word 16) :
    lane (lane X q) r = lane (lane X r) q := by
  refine eq_of_wordsAt (q := q) ?_ fun m hmq => ?_
  · rw [wordsAt_lane_of_disjoint h, wordsAt_lane hq, wordsAt_lane hq, wordsAt_lane_of_disjoint h]
  · rw [lane_getElem_of_notMem hmq]
    by_cases hmr : m ∈ r.indices
    · refine wordsAt_eq_iff.mp ?_ m hmr
      rw [wordsAt_lane hr, wordsAt_lane hr, wordsAt_lane_of_disjoint h.symm]
    · rw [lane_getElem_of_notMem hmr, lane_getElem_of_notMem hmr, lane_getElem_of_notMem hmq]

/-! ### Bijections (rule R121) -/

/-- A rotation loses no bit: bit `i` of the word is bit `i + n` mod 32 of its rotation (rule R5). -/
theorem rotl_injective {n : Nat} (h0 : 0 < n) (hn : n < 32) : Function.Injective fun x => rotl x n := by
  refine fun x y hxy => BitVec.eq_of_getLsbD_eq fun i hi => ?_
  have hback (z : Word) : z.getLsbD i = (rotl z n).getLsbD ((i + n) % 32) := by
    rw [Proofs.rotlMovesEveryBit z n _ h0 hn (Nat.mod_lt _ (by decide))]
    congr 1
    omega
  rw [hback x, hback y]
  exact congrArg (BitVec.getLsbD · _) hxy

/-- Six of the quarter-round's twelve steps, with their two rotations. -/
def halfRound (r s : Nat) (w : Word × Word × Word × Word) : Word × Word × Word × Word :=
  let (a, b, c, d) := w
  let a := a + b; let d := rotl (d ^^^ a) r
  let c := c + d; let b := rotl (b ^^^ c) s
  (a, b, c, d)

/-- The quarter-round is two half-rounds. -/
theorem quarterRoundOn_eq_halfRounds : quarterRoundOn = halfRound 8 7 ∘ halfRound 16 12 := rfl

/-- Each step of a half-round can be undone: a sum, an exclusive or and a rotation each determine the word they were made from. -/
theorem halfRound_injective {r s : Nat} (hr0 : 0 < r) (hr : r < 32) (hs0 : 0 < s) (hs : s < 32) : Function.Injective (halfRound r s) := by
  rintro ⟨a, b, c, d⟩ ⟨a', b', c', d'⟩ h
  simp only [halfRound, Prod.mk.injEq] at h
  obtain ⟨ha, hb, hc, hd⟩ := h
  obtain rfl : c = c' := by rwa [hd, BitVec.add_left_inj] at hc
  obtain rfl : b = b' := by
    rw [hd] at hb
    exact (BitVec.xor_left_inj _).mp (rotl_injective hs0 hs hb)
  obtain rfl : a = a' := (BitVec.add_left_inj _).mp ha
  obtain rfl : d = d' := (BitVec.xor_left_inj _).mp (rotl_injective hr0 hr hd)
  rfl

/-- The quarter-round is a bijection on tuples of four words. -/
theorem quarterRoundOn_bijective : Function.Bijective quarterRoundOn := by
  refine Function.Injective.bijective_of_finite ?_
  rw [quarterRoundOn_eq_halfRounds]
  exact (halfRound_injective (by decide) (by decide) (by decide) (by decide)).comp
    (halfRound_injective (by decide) (by decide) (by decide) (by decide))

/-- There are finitely many states of sixteen words. -/
theorem finite_vector_word : Finite (Vector Word 16) :=
  Finite.of_injective (fun (X : Vector Word 16) (m : Fin 16) => X[m]) fun _ _ h => Vector.ext fun m hm => congrFun h ⟨m, hm⟩

/-- A lane is a bijection on states. -/
theorem lane_bijective {q : Quad} (hq : q.indices.Nodup) : Function.Bijective fun X => lane X q := by
  have := finite_vector_word
  refine Function.Injective.bijective_of_finite fun X Y (h : lane X q = lane Y q) => ?_
  refine eq_of_wordsAt (q := q) (quarterRoundOn_bijective.injective ?_) fun m hm => ?_
  · rw [← wordsAt_lane hq, ← wordsAt_lane hq, h]
  · rw [← lane_getElem_of_notMem hm X, ← lane_getElem_of_notMem hm Y, h]

/-- Lanes that share no index, one after the other, are a bijection. -/
theorem foldl_lane_bijective {qs : List Quad} (h : (qs.flatMap Quad.indices).Nodup) : Function.Bijective fun X => qs.foldl lane X := by
  induction qs with
  | nil => exact Function.bijective_id
  | cons q qs ih =>
    obtain ⟨hq, hqs, -⟩ := List.nodup_append.mp h
    exact (ih hqs).comp (lane_bijective hq)

/-! ### Rounds (rules R124 to R128) -/

/-- The quads of the column round. -/
def columnQuads : List Quad := [(0, 4, 8, 12), (1, 5, 9, 13), (2, 6, 10, 14), (3, 7, 11, 15)]

/-- The quads of the diagonal round. -/
def diagonalQuads : List Quad := [(0, 5, 10, 15), (1, 6, 11, 12), (2, 7, 8, 13), (3, 4, 9, 14)]

/-- The column round is its four lanes in order (rule R124). -/
theorem columnRound_eq_foldl : columnRound = fun X => columnQuads.foldl lane X := rfl

/-- The diagonal round is its four lanes in order (rule R125). -/
theorem diagonalRound_eq_foldl : diagonalRound = fun X => diagonalQuads.foldl lane X := rfl

/-- A double round is eight lanes in order (rule R126). -/
theorem doubleRound_eq_foldl (X : Vector Word 16) : doubleRound X = (columnQuads ++ diagonalQuads).foldl lane X := rfl

/-- The sixteen indices of a column round are distinct. -/
theorem columnQuads_nodup : (columnQuads.flatMap Quad.indices).Nodup := by decide

/-- The sixteen indices of a diagonal round are distinct. -/
theorem diagonalQuads_nodup : (diagonalQuads.flatMap Quad.indices).Nodup := by decide

/-- Lanes that share no index give the same state in any order (rule R127). -/
theorem foldl_lane_perm {qs rs : List Quad} (hqs : (qs.flatMap Quad.indices).Nodup) (h : rs.Perm qs) (X : Vector Word 16) :
    rs.foldl lane X = qs.foldl lane X := by
  obtain ⟨hnodup, hdisjoint⟩ := List.nodup_flatMap.mp hqs
  have : Std.Symm (Function.onFun List.Disjoint Quad.indices) := ⟨fun _ _ h => h.symm⟩
  refine (h.symm.foldl_eq' (fun q hq r hr Y => ?_) X).symm
  by_cases hqr : q = r
  · rw [hqr]
  · exact lane_comm (hnodup q hq) (hnodup r hr) (hdisjoint.forall hq hr hqr) Y

/-- A double round is a bijection. -/
theorem doubleRound_bijective : Function.Bijective doubleRound := by
  have hcolumn : Function.Bijective columnRound := columnRound_eq_foldl ▸ foldl_lane_bijective columnQuads_nodup
  have hdiagonal : Function.Bijective diagonalRound := diagonalRound_eq_foldl ▸ foldl_lane_bijective diagonalQuads_nodup
  exact hdiagonal.comp hcolumn

/-- `n` double rounds are `doubleRound` iterated. -/
theorem doubleRounds_eq_iterate (n : Nat) : doubleRounds n = doubleRound^[n] := by
  induction n with
  | zero => rfl
  | succ n ih => funext X; exact congrFun ih _

/-- `perm` is ten double rounds (rule R128). -/
theorem perm_eq_iterate : perm = doubleRound^[10] := doubleRounds_eq_iterate 10

/-- Iterated double rounds are the lanes of as many column and diagonal rounds in order. -/
theorem iterate_doubleRound_eq_foldl (n : Nat) (X : Vector Word 16) :
    doubleRound^[n] X = (List.replicate n (columnQuads ++ diagonalQuads)).flatten.foldl lane X := by
  induction n generalizing X with
  | zero => rfl
  | succ n ih => rw [Function.iterate_succ_apply, ih, List.replicate_succ, List.flatten_cons, List.foldl_append, doubleRound_eq_foldl]

/-! ### The block (rules R129 and R130) -/

/-- Word `i` of the final sum. -/
theorem finalAdd_getElem (S : Vector Word 16) (i : Fin 16) : (finalAdd S)[i] = (perm S)[i] + S[i] := Vector.getElem_zipWith i.isLt

/-- A serialised state has 64 bytes. -/
theorem serialize_length (Y : Vector Word 16) : (serialize Y).length = 64 := by
  rw [serialize, flatMap_bytesLe_length, Vector.length_toList]

/-- Byte `4i + k` of a serialised state is byte `k` of word `i`. -/
theorem serialize_getElem? (Y : Vector Word 16) (i : Fin 16) {k : Nat} (hk : k < 4) :
    (serialize Y)[4 * i.val + k]? = some (Y[i].extractLsb' (8 * k) 8) := by
  have hdiv : (4 * i.val + k) / 4 = i.val := by omega
  have hmod : (4 * i.val + k) % 4 = k := by omega
  have hi : Y.toList[i.val]? = some Y[i] := by simp
  rw [serialize, flatMap_bytesLe_getElem?, hdiv, hmod, hi, Option.map_some]

end Sys2Proof.Machine

namespace Sys2Proof.Proofs
open Sys2Proof.Machine

/-- Settles O33: the three quarter-rounds are computed. -/
theorem quarterRoundExamples : Obligations.QuarterRoundExamples := by
  unfold Obligations.QuarterRoundExamples
  decide

/-- Settles O34: the quarter-round is injective and the tuples are finitely many; the permutation iterates the bijective double round. -/
theorem quarterRoundAndPermutationAreBijections : Obligations.QuarterRoundAndPermutationAreBijections := by
  refine ⟨quarterRoundOn_bijective, ?_⟩
  rw [perm_eq_iterate]
  exact doubleRound_bijective.iterate 10

/-- Settles O35: the lane's words at its quad, and its frame. -/
theorem qrxTouchesOnlyItsFourWords : Obligations.QrxTouchesOnlyItsFourWords :=
  fun X i j k l h => ⟨wordsAt_lane (q := (i, j, k, l)) h X, fun _ hm => lane_getElem_of_notMem (q := (i, j, k, l)) hm X⟩

/-- Settles O36: the quads of a round are disjoint, so its lanes commute. -/
theorem lanesOfARoundCommute : Obligations.LanesOfARoundCommute :=
  fun X _ => ⟨fun h => foldl_lane_perm columnQuads_nodup h X, fun h => foldl_lane_perm diagonalQuads_nodup h X⟩

/-- Settles O37: ten double rounds, each the eight lanes of its two rounds. -/
theorem permutationIsEightyQuarterRounds : Obligations.PermutationIsEightyQuarterRounds := by
  refine ⟨rfl, fun X => ?_⟩
  have hperm : perm X = doubleRound^[10] X := congrFun perm_eq_iterate X
  exact ⟨hperm, hperm.trans (iterate_doubleRound_eq_foldl 10 X)⟩

/-- Settles O38: the serialisation's bytes, of the final sum's words. -/
theorem blockIsThePermutationPlusTheState : Obligations.BlockIsThePermutationPlusTheState := by
  refine fun S => ⟨serialize_length _, fun i k hk => ?_⟩
  rw [block, serialize_getElem? _ i hk, finalAdd_getElem]

/-- Settles O39: every lane keeps the all-zero state, and zero words sum and serialise to zero. -/
theorem zeroStateGivesTheZeroBlock : Obligations.ZeroStateGivesTheZeroBlock := by
  have hlane (q : Quad) : lane (Vector.replicate 16 0) q = Vector.replicate 16 0 := by
    obtain ⟨-, hzero, -⟩ := quarterRoundExamples
    refine Vector.ext fun m hm => ?_
    simp only [lane, qrx, Fin.getElem_fin, Vector.getElem_set, Vector.getElem_replicate, hzero, ite_self]
  have hperm : perm (Vector.replicate 16 0) = Vector.replicate 16 0 := by
    obtain ⟨-, h⟩ := permutationIsEightyQuarterRounds
    exact (h _).2.trans (List.foldl_fixed' hlane _)
  refine ⟨hperm, ?_⟩
  rw [block, finalAdd, hperm, Vector.zipWith_replicate]
  rfl

end Sys2Proof.Proofs
end

section
/-! PROOFS of the counter sequencer statements (43_counter_sequencer.md): the carry of one advance, the advances of a transform, and the pair
(S[13], S[12]) as one number. -/

namespace Sys2Proof.Machine
open Sys2Proof.Spec

/-- Adding 1 wraps a word to 0 exactly when it is the last one. -/
theorem add_one_eq_zero_iff (w : Word) : w + 1#32 = 0#32 ↔ w = 0xFFFFFFFF#32 := by
  bv_omega

/-- One advance moves the counter by 1, mod 2^32 (rule R150). -/
theorem advance_ctr (c : Instance) : (advance c).ctr = c.ctr + 1#32 := advanceBy_ctr 1 c

/-- One advance carries into `S[13]` exactly when the counter was at its last value (rule R150). -/
theorem advance_nonce_zero (c : Instance) :
    (advance c).nonce[0] = if c.ctr = 0xFFFFFFFF#32 then c.nonce[0] + 1#32 else c.nonce[0] := by
  obtain ⟨hw, h⟩ | ⟨hw, h⟩ := advance_cases c
  · rw [if_pos ((add_one_eq_zero_iff _).mp hw), h]
    exact Vector.getElem_set_self _
  · rw [if_neg (mt (add_one_eq_zero_iff _).mpr hw), h]

/-- One advance never writes `S[14]` and `S[15]` (decision D10). -/
theorem advance_nonce_tail (c : Instance) : (advance c).nonce[1] = c.nonce[1] ∧ (advance c).nonce[2] = c.nonce[2] := by
  obtain ⟨-, h1, h2⟩ := advanceBy_nonce 1 c
  exact ⟨h1, h2⟩

/-- `adv^n` is the `n`-th iterate of one advance. -/
theorem advanceBy_eq_iterate (n : Nat) : advanceBy n = advance^[n] := by
  induction n with
  | zero => rfl
  | succ n ih => funext c; exact congrFun ih (advance c)

/-- `n` advances add `n` to the pair (S[13], S[12]), mod 2^64: the carries make up the high word (rule R153). -/
theorem counter64_advanceBy (n : Nat) (c : Instance) : counter64 (advanceBy n c) = (counter64 c + n) % 2 ^ 64 := by
  obtain ⟨hhigh, -, -⟩ := advanceBy_nonce n c
  simp only [counter64, advanceBy_ctr, hhigh, BitVec.toNat_add, BitVec.toNat_ofNat]
  omega

end Sys2Proof.Machine

namespace Sys2Proof.Proofs
open Sys2Proof.Machine Sys2Proof.Spec

/-- Settles O40: the counter, the carry and the nonce words it cannot reach, then the registers an advance never writes. -/
theorem advanceCarriesIntoTheFirstNonceWord : Obligations.AdvanceCarriesIntoTheFirstNonceWord := by
  intro c
  obtain ⟨h1, h2⟩ := advance_nonce_tail c
  exact ⟨advance_ctr c, advance_nonce_zero c, h1, h2, advance_key c, advance_init c, advance_responses c, advance_draws c⟩

/-- Settles O41: the loop's advances, counted in `xorRange_fst`, as an iterate. -/
theorem transformAdvancesOncePerBlock : Obligations.TransformAdvancesOncePerBlock := by
  intro c B start length
  rw [xorRange_fst, advanceBy_eq_iterate]

/-- Settles O42: one advance and a transform's advances are both cases of `n` advances. -/
theorem counterPairIsA64BitCounter : Obligations.CounterPairIsA64BitCounter := by
  refine fun c => ⟨⟨counter64_advanceBy 1 c, advance_nonce_tail c⟩, fun B start length => ?_⟩
  obtain ⟨-, h1, h2⟩ := advanceBy_nonce (blocks length) c
  rw [xorRange_fst]
  exact ⟨counter64_advanceBy _ c, h1, h2⟩

end Sys2Proof.Proofs
end

section
/-! PROOFS of the transform statements (44_transform.md): the loop of `xor_range` against the keystream's closed form, what the three forms answer,
and how the closed form composes with itself. -/

namespace Sys2Proof.Machine
open Sys2Proof.Spec

/-! ### The keystream (rule R160) -/

/-- The keystream's first 64 bytes are the block of the state itself. -/
theorem keystream_of_lt {p : Nat} (hp : p < 64) (c : Instance) : keystream c p = (block c.words).getD p 0#8 := by
  rw [keystream, blockBytes, Nat.div_eq_of_lt hp, Nat.mod_eq_of_lt hp, advanceBy_zero]

/-- The keystream of a state past `n` blocks is the keystream from byte `64n` on. -/
theorem keystream_advanceBy (n p : Nat) (c : Instance) : keystream (advanceBy n c) p = keystream c (64 * n + p) := by
  have hdiv : (64 * n + p) / 64 = n + p / 64 := Nat.mul_add_div (by decide) n p
  rw [keystream, keystream, blockBytes, hdiv, Nat.mul_add_mod, advanceBy_add]

/-- Instances of equal Working State advance to equal Working States. -/
theorem words_advance_congr {c d : Instance} (h : c.words = d.words) : (advance c).words = (advance d).words := by
  obtain ⟨hkey, hctr, hnonce⟩ := (Instance.words_eq_iff c d).mp h
  refine (Instance.words_eq_iff _ _).mpr ⟨by rw [advance_key, advance_key, hkey], by rw [advance_ctr, advance_ctr, hctr], ?_⟩
  simp only [advance, hctr, hnonce]
  split <;> rfl

theorem words_advanceBy_congr {c d : Instance} (h : c.words = d.words) (n : Nat) : (advanceBy n c).words = (advanceBy n d).words := by
  induction n generalizing c d with
  | zero => exact h
  | succ n ih => exact ih (words_advance_congr h)

/-- The keystream is a function of the Working State. -/
theorem keystream_congr {c d : Instance} (h : c.words = d.words) : keystream c = keystream d := by
  funext p
  rw [keystream, keystream, words_advanceBy_congr h]

/-! ### The closed form (rule R163) -/

theorem xored_getElem? (c : Instance) (B : List Byte) (start length q : Nat) :
    (xored c B start length)[q]? = B[q]?.map fun b => if start ≤ q ∧ q < start + length then b ^^^ keystream c (q - start) else b :=
  List.getElem?_mapIdx

@[simp] theorem xored_length (c : Instance) (B : List Byte) (start length : Nat) : (xored c B start length).length = B.length :=
  List.length_mapIdx

theorem xored_congr {c d : Instance} (h : c.words = d.words) (B : List Byte) (start length : Nat) :
    xored c B start length = xored d B start length := by
  rw [xored, xored, keystream_congr h]

/-- The closed form is read back from its region with the length of the buffer it came from. -/
@[simp] theorem regionBytes_xored (c : Instance) (B : List Byte) (start length : Nat) :
    regionBytes B.length (regionWords (xored c B start length)) = xored c B start length := by
  simpa only [xored_length] using regionBytes_regionWords (xored c B start length)

/-- Bytes outside the range stay. -/
theorem xored_getElem?_of_outside {start length q : Nat} (h : q < start ∨ start + length ≤ q) (c : Instance) (B : List Byte) :
    (xored c B start length)[q]? = B[q]? := by
  have hq : ¬ (start ≤ q ∧ q < start + length) := by omega
  simp only [xored_getElem?, hq, if_false, Option.map_id']

/-- The closed form undoes itself: each byte is XORed with the same keystream byte twice (rule R171). -/
theorem xored_xored (c : Instance) (B : List Byte) (start length : Nat) : xored c (xored c B start length) start length = B := by
  refine List.ext_getElem? fun q => ?_
  by_cases hq : start ≤ q ∧ q < start + length
  · simp only [xored_getElem?, hq, and_self, if_true, Option.map_map, Function.comp_def, BitVec.xor_assoc, BitVec.xor_self, BitVec.xor_zero,
      Option.map_id']
  · rw [xored_getElem?_of_outside (by omega), xored_getElem?_of_outside (by omega)]

/-- The loop of rule R162, with fuel for what it has left to do: byte `q` of `[cur, stop)` is XORed with keystream byte `q - cur`. A turn uses
the keystream's first block on its bytes, and leaves the rest of the range to the keystream of the advanced state. -/
theorem xorLoop_snd_getElem? (stop fuel cur : Nat) (c : Instance) (B : List Byte) (hf : stop - cur ≤ fuel) (q : Nat) :
    (xorLoop stop fuel cur c B).2[q]? = B[q]?.map fun b => if cur ≤ q ∧ q < stop then b ^^^ keystream c (q - cur) else b := by
  induction fuel generalizing cur c B with
  | zero =>
    have hq : ¬ (cur ≤ q ∧ q < stop) := by omega
    simp only [xorLoop, hq, if_false, Option.map_id']
  | succ fuel ih =>
    by_cases hlt : cur < stop
    · simp only [xorLoop, hlt, if_true]
      generalize hn : min blockBytes (stop - cur) = n
      rw [blockBytes] at hn
      rw [ih _ _ _ (by omega), xorBytes_getElem?, Option.map_map]
      congr 1
      funext b
      by_cases hblock : cur ≤ q ∧ q < cur + n
      · have hrest : ¬ (cur + n ≤ q ∧ q < stop) := by omega
        have hall : cur ≤ q ∧ q < stop := by omega
        rw [Function.comp_apply, if_pos hblock, if_neg hrest, if_pos hall, keystream_of_lt (by omega)]
      · have hrest : (cur + n ≤ q ∧ q < stop) ↔ (cur ≤ q ∧ q < stop) := by omega
        simp only [Function.comp_apply, hblock, hrest, if_false]
        split
        · have hp : q - cur = 64 * 1 + (q - (cur + n)) := by omega
          rw [hp, ← keystream_advanceBy]
          rfl
        · rfl
    · have hq : ¬ (cur ≤ q ∧ q < stop) := by omega
      simp only [xorLoop, hlt, hq, if_false, Option.map_id']

/-- `xor_range` is its closed form, on every range: a byte past the buffer's end is neither read nor written. -/
theorem xorRange_eq (c : Instance) (B : List Byte) (start length : Nat) :
    xorRange c B start length = (advanceBy (blocks length) c, xored c B start length) := by
  refine Prod.ext (xorRange_fst c B start length) (List.ext_getElem? fun q => ?_)
  rw [xored_getElem?]
  exact xorLoop_snd_getElem? _ _ _ _ _ (by omega) q

/-! ### What the three forms answer (rules R164, R165 and R168) -/

/-- An OK response has status word 0. -/
@[simp] theorem respond_header_toNat (c : Instance) (payload : List Word) : (respond c payload).2.header.toNat = 0 := rfl

/-- An error's response has its code in the status word. -/
@[simp] theorem raiseError_header_toNat (st : Status) (c : Instance) : (raiseError st c).2.header.toNat = st.code.toNat := by
  cases st <;> rfl

/-- XFORMR's status word: INIT is tested first, then the range. -/
theorem xformrOn_header_toNat (buf : List Byte) (start length : Word) (c : Instance) :
    (xformrOn buf start length c).2.header.toNat = statusCode c.init (.xformr buf start length) := by
  cases h : c.init with
  | false => simp [xformrOn, h, statusCode, Status.code]
  | true =>
    by_cases hr : start.toNat + length.toNat ≤ buf.length
    · simp [xformrOn, h, inRange, hr, Nat.not_lt.mpr hr, respondBuffer, statusCode]
    · simp [xformrOn, h, inRange, hr, Nat.lt_of_not_le hr, statusCode, Status.code]

/-- Every command's status word is the code of its first error in the order of rule R206, or 0. -/
theorem answerOf_header_toNat (i : Instr) (c : Instance) : (answerOf i c).2.header.toNat = statusCode c.init i := by
  cases i with
  | setstate key nonce ctr =>
    by_cases hl : key.length = 32 ∧ nonce.length = 12
    · simp [answerOf, setstateOn_of_lengths hl, statusCode, hl]
    · have hwrong : key.length ≠ 32 ∨ nonce.length ≠ 12 := by omega
      simp [answerOf, setstateOn_of_wrong_lengths hl, statusCode, hwrong, Status.code]
  | getctr => cases h : c.init <;> simp [answerOf, getctrOn, h, statusCode, Status.code]
  | setctr value => cases h : c.init <;> simp [answerOf, setctrOn, h, statusCode, Status.code]
  | xform buf => cases h : c.init <;> simp [answerOf, xformOn, h, respondBuffer, statusCode, Status.code]
  | xformr buf start length => exact xformrOn_header_toNat buf start length c
  | xformc src dsize start length =>
    by_cases hs : src.length = dsize.toNat
    · rw [answerOf, xformcOn_eq_xformrOn hs, xformrOn_header_toNat]
      simp [statusCode, hs]
    · cases h : c.init <;> simp [answerOf, xformcOn, h, hs, statusCode, Status.code]

/-- The command `i` is a transform, of the buffer `B` (XFORMC: its source) on the range of `length` bytes from `start` on. -/
inductive Transforms : Instr → List Byte → Nat → Nat → Prop where
  | xform (B : List Byte) : Transforms (.xform B) B 0 B.length
  | xformr (B : List Byte) (start length : Word) : Transforms (.xformr B start length) B start.toNat length.toNat
  | xformc (B : List Byte) (dsize start length : Word) : Transforms (.xformc B dsize start length) B start.toNat length.toNat

/-- A transform that has no error to answer answers OK with the closed form, and its instance advanced. -/
theorem Transforms.answerOf_ok {i : Instr} {B : List Byte} {start length : Nat} (h : Transforms i B start length) {c : Instance}
    (hok : statusCode c.init i = 0) :
    answerOf i c = respond (advanceBy (blocks length) c) (regionWords (xored c B start length)) := by
  have hinit : c.init = true := by
    cases hc : c.init with
    | true => rfl
    | false => cases h <;> simp [statusCode, hc] at hok
  cases h with
  | xform => rw [answerOf, xformOn, requireInit_of_init hinit, xorRange_eq]; rfl
  | xformr _ start length =>
    have hr : inRange start length B.length = true := by simpa [statusCode, hinit, inRange] using hok
    rw [answerOf, xformrOn, requireInit_of_init hinit, if_pos hr, xorRange_eq]; rfl
  | xformc _ dsize start length =>
    obtain ⟨hsize, hr⟩ : B.length = dsize.toNat ∧ inRange start length B.length = true := by
      by_cases hs : B.length = dsize.toNat
      · simpa [statusCode, hinit, inRange, hs] using hok
      · simp [statusCode, hinit, hs] at hok
    rw [answerOf, xformcOn_eq_xformrOn hsize, xformrOn, requireInit_of_init hinit, if_pos hr, xorRange_eq]; rfl

/-- A command whose answer is an advance and a payload completes so: the response is added, and nothing else changes. -/
theorem exec_of_answerOf_eq {i : Instr} {s : State} {port : Nat} {c : Instance} (hx : s.Executing port c) {n : Nat} {payload : List Word}
    (h : answerOf i c = respond (advanceBy n c) payload) :
    exec i s = .next
      { instances := s.instances.set port { advanceBy n c with responses := c.responses ++ [⟨0x00000000, payload⟩] }
        inbox := s.inbox.tail } := by
  rw [exec_of_executing hx, h, ← advanceBy_responses n c]
  rfl

/-- The response that an OK transform sent, read back from the next state. -/
theorem Transforms.lastResponse_eq {i : Instr} {B : List Byte} {start length : Nat} (h : Transforms i B start length)
    {s t : State} {port : Nat} {c : Instance} {q : Packet} (hx : s.Executing port c) (ht : exec i s = .next t)
    (hq : t.lastResponse port = some q) (hok : q.header = 0) :
    statusCode c.init i = 0 ∧ q = ⟨0x00000000, regionWords (xored c B start length)⟩ := by
  obtain rfl : (answerOf i c).2 = q := by
    obtain rfl := exec_next_of_executing hx ht
    exact Option.some.inj ((State.lastResponse_commit hx _ _).symm.trans hq)
  have hstatus : statusCode c.init i = 0 := by rw [← answerOf_header_toNat, hok]; rfl
  refine ⟨hstatus, ?_⟩
  rw [h.answerOf_ok hstatus]
  rfl

/-! ### Transforms in two commands (rules R166, R171 and R172) -/

/-- The forms of rule R171: the operands other than the buffer are fixed. -/
def TransformForm (form : List Byte → Instr) : Prop :=
  form = (fun b => .xform b) ∨ (∃ start length, form = fun b => .xformr b start length) ∨
    (∃ dsize start length, form = fun b => .xformc b dsize start length)

/-- On buffers of one length a transform form has one range and one status. -/
theorem TransformForm.transforms {form : List Byte → Instr} (hform : TransformForm form) (B : List Byte) :
    ∃ start length, Transforms (form B) B start length ∧ ∀ B', B'.length = B.length →
      Transforms (form B') B' start length ∧ ∀ init, statusCode init (form B') = statusCode init (form B) := by
  obtain rfl | ⟨start, length, rfl⟩ | ⟨dsize, start, length, rfl⟩ := hform
  · exact ⟨0, B.length, .xform B, fun B' hlen => ⟨hlen ▸ .xform B', fun _ => rfl⟩⟩
  · exact ⟨_, _, .xformr B start length, fun B' hlen => ⟨.xformr B' start length, fun _ => by simp only [statusCode, hlen]⟩⟩
  · exact ⟨_, _, .xformc B dsize start length, fun B' hlen => ⟨.xformc B' dsize start length, fun _ => by simp only [statusCode, hlen]⟩⟩

/-- The blocks of two ranges add up when the first fills its blocks, or the second is empty. -/
theorem blocks_add {a b : Nat} (h : 64 ∣ a ∨ b = 0) : blocks (a + b) = blocks a + blocks b := by
  simp only [blocks]
  omega

/-- Two transforms that follow each other on a buffer: the second takes its keystream from the first's next whole block on (rule R166). -/
theorem xored_xored_split (c : Instance) (B : List Byte) (a b : Nat) :
    xored (advanceBy (blocks a) c) (xored c B 0 a) a b = B.mapIdx fun q x =>
      if q < a then x ^^^ keystream c q else if q < a + b then x ^^^ keystream c (64 * blocks a + (q - a)) else x := by
  refine List.ext_getElem? fun q => ?_
  simp only [xored_getElem?, List.getElem?_mapIdx, Option.map_map, keystream_advanceBy]
  congr 1
  funext x
  by_cases hq : q < a
  · have hsecond : ¬ (a ≤ q ∧ q < a + b) := by omega
    simp [hq, hsecond]
  · have hsecond : (a ≤ q ∧ q < a + b) ↔ q < a + b := by omega
    simp [hq, hsecond]

/-- When the first fills its blocks, or the second is empty, the two are one transform (rule R172). -/
theorem xored_xored_of_whole_blocks {a b : Nat} (h : 64 ∣ a ∨ b = 0) (c : Instance) (B : List Byte) :
    xored (advanceBy (blocks a) c) (xored c B 0 a) a b = xored c B 0 (a + b) := by
  rw [xored_xored_split, xored]
  congr 1
  funext q x
  by_cases hq : q < a
  · have hall : q < a + b := by omega
    simp [hq, hall]
  · by_cases hqb : q < a + b
    · have hp : 64 * blocks a + (q - a) = q := by simp only [blocks]; omega
      simp [hq, hqb, hp]
    · simp [hq, hqb]

end Sys2Proof.Machine

namespace Sys2Proof.Spec
open Sys2Proof.Machine

/-- Of the Working State, a command other than SETSTATE keeps all words but `S[12]` and `S[13]`, and only carries go into `S[13]`. -/
theorem CarriedBy.words {n : Nat} {c d : Instance} (h : CarriedBy n c d) :
    (∀ k : Fin 16, k.val < 12 ∨ 14 ≤ k.val → d.words[k] = c.words[k]) ∧ d.words[13] = c.words[13] + BitVec.ofNat 32 n := by
  obtain ⟨-, hkey, h13, h14, h15⟩ := h
  refine ⟨fun ⟨k, hk⟩ hrange => ?_, h13⟩
  simp only [Fin.getElem_fin]
  by_cases hconst : k < 4
  · rw [Instance.words_constants _ k hconst, Instance.words_constants _ k hconst]
  by_cases hkeyword : k < 12
  · obtain ⟨j, rfl⟩ : ∃ j, k = 4 + j := ⟨k - 4, by omega⟩
    rw [Instance.words_key _ j (by omega), Instance.words_key _ j (by omega), hkey]
  obtain rfl | rfl : k = 14 ∨ k = 15 := by simp only at hrange; omega
  · exact h14
  · exact h15

end Sys2Proof.Spec

namespace Sys2Proof.Proofs
open Sys2Proof.Machine Sys2Proof.Spec

/-- Settles O44: the closed form of the loop. -/
theorem xorRangeClosedForm : Obligations.XorRangeClosedForm :=
  fun c B start length _ => xorRange_eq c B start length

/-- Settles O45: on an initialised instance XFORM has no error to answer. -/
theorem xformTransformsTheWholeBuffer : Obligations.XformTransformsTheWholeBuffer := by
  intro buf s port c hx hinit
  exact exec_of_answerOf_eq hx ((Transforms.xform buf).answerOf_ok (by simp [statusCode, hinit]))

/-- Settles O46: INIT is 1 and the range is inside the buffer, so XFORMR has no error to answer. -/
theorem xformrTransformsTheRange : Obligations.XformrTransformsTheRange := by
  intro buf start length s port c hx hinit hr
  exact exec_of_answerOf_eq hx ((Transforms.xformr buf start length).answerOf_ok (by simp [statusCode, hinit, hr]))

/-- Settles O47: INIT is 1, the sizes agree and the range is inside them, so XFORMC has no error to answer. -/
theorem xformcCopiesThenTransformsTheRange : Obligations.XformcCopiesThenTransformsTheRange := by
  intro src dsize start length s port c hx hinit hsize hr
  exact exec_of_answerOf_eq hx ((Transforms.xformc src dsize start length).answerOf_ok (by simp [statusCode, hinit, hsize, hr]))

/-- Settles O49: a transform is no SETSTATE, so it leaves its instance but for the carries. -/
theorem transformsFrame : Obligations.TransformsFrame := by
  intro i hi s t port c hx ht
  have hop : i.opcode ≠ .setstate := by
    intro hop
    obtain ⟨key, nonce, ctr, rfl⟩ := eq_setstate_of_opcode hop
    exact hi
  have hcarried := carriedBy_answerOf hop c
  obtain ⟨hwords, h13⟩ := hcarried.words
  obtain ⟨hinit, -⟩ := hcarried
  exact ⟨_, (answerOf i c).2, exec_next_of_executing hx ht, hwords, h13, hinit, answerOf_draws i c,
    by rw [Instance.send_responses, answerOf_responses]⟩

/-- Settles O50: the region returned holds the closed form, which keeps the length and the bytes outside the range. -/
theorem bytesOutsideTheRangeAreReturnedUnchanged : Obligations.BytesOutsideTheRangeAreReturnedUnchanged := by
  intro B dsize start length i hi s t port c q hx ht hq hok
  have htransforms : Transforms i B start.toNat length.toNat := by
    obtain rfl | rfl := hi
    · exact .xformr B start length
    · exact .xformc B dsize start length
  obtain ⟨-, rfl⟩ := htransforms.lastResponse_eq hx ht hq hok
  refine ⟨?_, ?_, fun k hk => ?_⟩
  · rw [regionWords_length, xored_length]; rfl
  · rw [regionBytes_xored, xored_length]
  · rw [regionBytes_xored, xored_getElem?_of_outside hk]

/-- Settles O51: the second command has the same range, status and keystream, and the closed form undoes itself. -/
theorem transformingTwiceRestoresTheBuffer : Obligations.TransformingTwiceRestoresTheBuffer := by
  intro form B hform s s' t port port' c c' q hx hx' hwords hinit ht hq hok
  obtain ⟨start, length, hfirst, hsame⟩ := TransformForm.transforms hform B
  obtain ⟨hstatus, rfl⟩ := hfirst.lastResponse_eq hx ht hq hok
  obtain ⟨hsecond, hcode⟩ := hsame _ (xored_length c B start length)
  have hanswer := hsecond.answerOf_ok (c := c') (by rw [hcode, ← hinit, hstatus])
  rw [xored_congr hwords.symm, xored_xored] at hanswer
  obtain ⟨t', ht', hlast⟩ := exec_lastResponse hx' (form (xored c B start length))
  refine ⟨t', by rwa [regionBytes_xored], ?_⟩
  rw [hlast, hanswer]
  rfl

/-- Settles O52: both transforms by their closed form. -/
theorem splitRunsFollowTheCounterNotTheBuffer : Obligations.SplitRunsFollowTheCounterNotTheBuffer := by
  intro c B a b _ first second
  have hsecond : second = (advanceBy (blocks b) (advanceBy (blocks a) c), xored (advanceBy (blocks a) c) (xored c B 0 a) a b) := by
    simp only [second, first, xorRange_eq]
  refine ⟨?_, fun h => ?_⟩
  · rw [hsecond, xored_xored_split]
  · rw [hsecond, xorRange_eq, blocks_add h, advanceBy_add, xored_xored_of_whole_blocks h]

end Sys2Proof.Proofs
end

section
/-! PROOFS of the exception statements (60_exceptions.md): which packets are illegal, what an error leaves, the status by its order, that every accepted
event completes, and that equal instances answer equally. -/

namespace Sys2Proof
open Sys2Proof.Spec

/-! ### The illegal packets (rule R204, 30_encoding.md rule R75) -/

/-- The reserved header bits as the spec's arithmetic reads them. -/
theorem Packet.reserved_eq_zero_iff (p : Packet) : p.reserved = 0#8 ↔ p.header.toNat / 2 ^ 24 = 0 := by
  have hlt := p.header.isLt
  rw [← BitVec.toNat_inj]
  simp only [Packet.reserved, BitVec.extractLsb'_toNat, Nat.shiftRight_eq_div_pow, BitVec.toNat_ofNat]
  omega

/-- The length bits as the spec's arithmetic reads them. -/
theorem Packet.lengthField_eq_zero_iff (p : Packet) : p.lengthField = 0#16 ↔ p.header.toNat / 2 ^ 8 % 2 ^ 16 = 0 := by
  rw [← BitVec.toNat_inj]
  simp only [Packet.lengthField, BitVec.extractLsb'_toNat, Nat.shiftRight_eq_div_pow, BitVec.toNat_ofNat, Nat.zero_mod]

/-- SETSTATE's payload decodes when one word is left after its two regions (rule R65). -/
theorem exists_decodeSetstate_ok_iff (klen nlen : Nat) (ws : List Word) :
    (∃ i, decodeSetstate klen nlen ws = .ok i) ↔ ws.length + 1 = 2 + wordsFor klen + wordsFor nlen := by
  have hcount : (∃ ctr, ws.drop (wordsFor klen + wordsFor nlen) = [ctr]) ↔ ws.length + 1 = 2 + wordsFor klen + wordsFor nlen := by
    rw [← List.length_eq_one_iff, List.length_drop]
    omega
  rw [← hcount, decodeSetstate]
  split
  · next ctr hctr => simp [hctr]
  · next hne => simpa using hne

/-- A decoder that ends with a test succeeds when the test does. -/
theorem exists_ite_ok_iff {P : Prop} [Decidable P] (i : Instr) (r : Illegal) :
    (∃ j, (if P then Except.ok i else Except.error r) = .ok j) ↔ P := by
  split <;> simp [*]

/-- XFORM's payload decodes when its region has the words of SIZE (rule R70). -/
theorem exists_decodeXform_ok_iff (size : Word) (ws : List Word) :
    (∃ i, decodeXform (size :: ws) = .ok i) ↔ ws.length + 2 = 2 + wordsFor size.toNat := by
  rw [decodeXform, exists_ite_ok_iff]
  omega

/-- XFORMR's payload decodes when two operand words and then the region of SIZE follow (rule R71). -/
theorem exists_decodeXformr_ok_iff (size : Word) (ws : List Word) :
    (∃ i, decodeXformr (size :: ws) = .ok i) ↔ ws.length + 2 = 4 + wordsFor size.toNat := by
  match ws with
  | [] | [_] => simp only [decodeXformr, reduceCtorEq, exists_false, List.length_nil, List.length_cons, false_iff]; omega
  | start :: length :: region =>
    rw [decodeXformr, exists_ite_ok_iff, List.length_cons, List.length_cons]
    omega

/-- XFORMC's payload decodes when three operand words and then the region of SSIZE follow (rule R72). -/
theorem exists_decodeXformc_ok_iff (ssize : Word) (ws : List Word) :
    (∃ i, decodeXformc (ssize :: ws) = .ok i) ↔ ws.length + 2 = 5 + wordsFor ssize.toNat := by
  match ws with
  | [] | [_] | [_, _] => simp only [decodeXformc, reduceCtorEq, exists_false, List.length_nil, List.length_cons, false_iff]; omega
  | dsize :: start :: length :: region =>
    rw [decodeXformc, exists_ite_ok_iff, List.length_cons, List.length_cons, List.length_cons]
    omega

/-- A payload decodes exactly when it has the word count that its header and size word require. -/
theorem exists_decodePayload_ok_iff {p : Packet} {op : Opcode} (hop : p.opc = op.code) :
    (∃ i, decodePayload p op = .ok i) ↔ CountMatches p := by
  have hopc : Spec.opc p = op.code.toNat := by rw [← hop, Packet.toNat_opc]
  obtain ⟨header, payload⟩ := p
  cases op with
  | setstate =>
    simp only [decodePayload, exists_decodeSetstate_ok_iff, Packet.klen_eq, Packet.nlen_eq, CountMatches, hopc]
    rfl
  | getctr => cases payload <;> simp [decodePayload, decodeGetctr, CountMatches, hopc, Opcode.code]
  | setctr =>
    match payload with
    | [] | [_] | _ :: _ :: _ => simp [decodePayload, decodeSetctr, CountMatches, hopc, Opcode.code]
  | xform =>
    cases payload with
    | nil => simp [decodePayload, decodeXform, CountMatches, hopc, Opcode.code]
    | cons size ws =>
      simp only [decodePayload, exists_decodeXform_ok_iff, CountMatches, hopc]
      rfl
  | xformr =>
    cases payload with
    | nil => simp [decodePayload, decodeXformr, CountMatches, hopc, Opcode.code]
    | cons size ws =>
      simp only [decodePayload, exists_decodeXformr_ok_iff, CountMatches, hopc]
      rfl
  | xformc =>
    cases payload with
    | nil => simp [decodePayload, decodeXformc, CountMatches, hopc, Opcode.code]
    | cons ssize ws =>
      simp only [decodePayload, exists_decodeXformc_ok_iff, CountMatches, hopc]
      rfl

/-- The packets that decode, by the tests of rule R73. -/
theorem exists_decode_ok_iff (p : Packet) :
    (∃ i, decode p = .ok i) ↔
      ∃ op : Opcode, p.opc = op.code ∧ p.reserved = 0#8 ∧ (op ≠ .setstate → p.lengthField = 0#16) ∧ CountMatches p := by
  constructor
  · rintro ⟨i, hd⟩
    obtain ⟨hsome, hres, hlen, -⟩ := decode_ok hd
    have hop := Opcode.eq_code_of_ofByte hsome
    have hdp := decode_eq_decodePayload hop hres hlen
    exact ⟨i.opcode, hop, hres, hlen, (exists_decodePayload_ok_iff hop).mp ⟨i, hdp ▸ hd⟩⟩
  · rintro ⟨op, hop, hres, hlen, hcount⟩
    rw [decode_eq_decodePayload hop hres hlen]
    exact (exists_decodePayload_ok_iff hop).mpr hcount

/-- OPC is assigned unless it is 0 or at least 7 (rule R62). -/
theorem exists_opc_eq_code_iff (p : Packet) : (∃ op : Opcode, p.opc = op.code) ↔ Spec.opc p ≠ 0 ∧ ¬ 7 ≤ Spec.opc p := by
  rw [← Packet.toNat_opc]
  constructor
  · rintro ⟨op, hop⟩
    have := op.code_range
    rw [hop]
    omega
  · rintro ⟨hzero, hseven⟩
    obtain ⟨-, hres⟩ | ⟨op, -, hop⟩ := Opcode.ofByte_cases p.opc
    · exact absurd hres (not_or.mpr ⟨hzero, hseven⟩)
    · exact ⟨op, hop⟩

/-- OPC is 1 for SETSTATE alone. -/
theorem opc_ne_one_iff {p : Packet} {op : Opcode} (hop : p.opc = op.code) : Spec.opc p ≠ 1 ↔ op ≠ .setstate := by
  rw [← Packet.toNat_opc, hop]
  cases op <;> decide

/-- Exactly the packets that are not illegal decode. -/
theorem exists_decode_ok_iff_not_illegalPacket (p : Packet) : (∃ i, decode p = .ok i) ↔ ¬ IllegalPacket p := by
  simp only [exists_decode_ok_iff, p.reserved_eq_zero_iff, p.lengthField_eq_zero_iff, IllegalPacket, not_or, not_and, not_not]
  constructor
  · rintro ⟨op, hop, hres, hlen, hcount⟩
    obtain ⟨hzero, hseven⟩ := (exists_opc_eq_code_iff p).mp ⟨op, hop⟩
    exact ⟨hzero, hseven, hres, fun hne => hlen ((opc_ne_one_iff hop).mp hne), hcount⟩
  · rintro ⟨hzero, hseven, hres, hlen, hcount⟩
    obtain ⟨op, hop⟩ := (exists_opc_eq_code_iff p).mpr ⟨hzero, hseven⟩
    exact ⟨op, hop, hres, fun hne => hlen ((opc_ne_one_iff hop).mpr hne), hcount⟩

/-- Exactly the illegal packets decode to no command. -/
theorem exists_decode_error_iff (p : Packet) : (∃ r, decode p = .error r) ↔ IllegalPacket p := by
  rw [← not_iff_not, ← exists_decode_ok_iff_not_illegalPacket]
  cases decode p <;> simp

end Sys2Proof

namespace Sys2Proof.Machine
open Sys2Proof.Spec

/-! ### The one stop -/

/-- A command with no instance to execute it is the model's fault. -/
theorem runCommand_of_not_executing {s : State} (h : ¬ ∃ port c, s.Executing port c) (body : Instance → Answer) :
    runCommand body s = .fault .noExecutingInstance := by
  cases hr : runCommand body s with
  | next t =>
    obtain ⟨port, c, hx, -⟩ := runCommand_next hr
    exact absurd ⟨port, c, hx⟩ h
  | fault r => cases r; rfl
  | refused r => exact absurd hr (runCommand_ne_refused body s r)

/-- Retiring the inbox's head leaves every other event the instance it had. -/
theorem State.PortsExist.commit {s : State} (h : s.PortsExist) (port : Nat) (c : Instance) : (s.commit port c).PortsExist := by
  intro a ha
  simpa only [State.commit_instances, List.length_set] using h a (List.mem_of_mem_tail ha)

/-! ### A command that ends with an error (rules R205 and R206) -/

/-- A command that meets an error leaves its instance as it was, and answers the first error's code alone. -/
theorem answerOf_of_statusCode_ne_zero {i : Instr} {c : Instance} (h : statusCode c.init i ≠ 0) :
    answerOf i c = (c, ⟨BitVec.ofNat 32 (statusCode c.init i), []⟩) := by
  rw [← answerOf_header_toNat] at h ⊢
  obtain hok | ⟨st, herr⟩ := answerOf_ok_or_error i c
  · exact absurd (congrArg BitVec.toNat hok) h
  · rw [BitVec.ofNat_toNat, BitVec.setWidth_eq, herr, raiseError]

/-- A command that meets an error completes so: the code is sent, and nothing else changes. -/
theorem exec_of_statusCode {i : Instr} {s : State} {port : Nat} {c : Instance} (hx : s.Executing port c) {code : Nat}
    (hcode : statusCode c.init i = code) (hne : code ≠ 0) :
    exec i s = .next
      { instances := s.instances.set port { c with responses := c.responses ++ [⟨BitVec.ofNat 32 code, []⟩] }, inbox := s.inbox.tail } := by
  rw [exec_of_executing hx, answerOf_of_statusCode_ne_zero (hcode ▸ hne), hcode]
  rfl

/-! ### The answer to a packet -/

/-- What a packet at the inbox's head is answered by its instance, decodable or not (30_encoding.md rule R73). -/
def packetAnswer (p : Packet) (c : Instance) : Answer :=
  match decode p with
  | .ok i => answerOf i c
  | .error _ => raiseError .illegalCommand c

/-- A packet is served by sending its answer. -/
theorem serve_command (port : Nat) (p : Packet) (c : Instance) :
    serve port c (.command p) = (packetAnswer p c).1.send (packetAnswer p c).2 := by
  cases hd : decode p <;> simp only [serve, packetAnswer, hd, raiseError]

/-- A step on a packet commits its answer. -/
theorem step_command {s : State} {port : Nat} {p : Packet} {rest : List Arrival} {c : Instance} (hb : s.inbox = ⟨port, .command p⟩ :: rest)
    (hc : s.instances[port]? = some c) : step s = .next (s.commit port ((packetAnswer p c).1.send (packetAnswer p c).2)) := by
  rw [← serve_command port]
  exact step_of_inbox hb hc

/-- An illegal packet is answered ILLEGAL_COMMAND, whatever the instance. -/
theorem packetAnswer_of_illegalPacket {p : Packet} (h : IllegalPacket p) (c : Instance) :
    packetAnswer p c = raiseError .illegalCommand c := by
  obtain ⟨r, hd⟩ := (exists_decode_error_iff p).mpr h
  simp only [packetAnswer, hd]

/-- Answering a packet keeps the responses sent before it. -/
@[simp] theorem packetAnswer_responses (p : Packet) (c : Instance) : (packetAnswer p c).1.responses = c.responses := by
  cases hd : decode p with
  | ok i => simp only [packetAnswer, hd, answerOf_responses]
  | error r => simp only [packetAnswer, hd, raiseError]

/-- A packet is answered OK, or with an error. -/
theorem packetAnswer_ok_or_error (p : Packet) (c : Instance) :
    (packetAnswer p c).2.header = 0#32 ∨ ∃ st, packetAnswer p c = raiseError st c := by
  cases hd : decode p with
  | ok i => simpa only [packetAnswer, hd] using answerOf_ok_or_error i c
  | error r => exact .inr ⟨.illegalCommand, by simp only [packetAnswer, hd]⟩

/-! ### Equal instances (rule R221) -/

/-- Two instances of equal Working State and INIT, whatever was sent and drawn before. -/
def Instance.SameState (c d : Instance) : Prop := c.words = d.words ∧ c.init = d.init

/-- What is sent is no part of the Working State. -/
theorem Instance.SameState.send {c d : Instance} (h : c.SameState d) (q r : Packet) : (c.send q).SameState (d.send r) := h

/-- Instances of equal state advance to equal states. -/
theorem Instance.SameState.advanceBy {c d : Instance} (h : c.SameState d) (n : Nat) : (advanceBy n c).SameState (advanceBy n d) := by
  obtain ⟨hwords, hinit⟩ := h
  exact ⟨words_advanceBy_congr hwords n, by rw [advanceBy_init, advanceBy_init, hinit]⟩

/-- SETCTR writes one word of both alike. -/
theorem Instance.SameState.setCtr {c d : Instance} (h : c.SameState d) (value : Word) : (c.setCtr value).SameState (d.setCtr value) := by
  obtain ⟨hwords, hinit⟩ := h
  obtain ⟨hkey, -, hnonce⟩ := (Instance.words_eq_iff c d).mp hwords
  exact ⟨(Instance.words_eq_iff _ _).mpr ⟨hkey, rfl, hnonce⟩, hinit⟩

/-- A transform that meets no error gives instances of equal state the same response, and leaves them in equal states. -/
theorem Instance.SameState.transform {c d : Instance} (h : c.SameState d) {i : Instr} {B : List Byte} {start length : Nat}
    (hi : Transforms i B start length) (hok : statusCode c.init i = 0) :
    (answerOf i c).1.SameState (answerOf i d).1 ∧ (answerOf i c).2 = (answerOf i d).2 := by
  obtain ⟨hwords, hinit⟩ := h
  rw [hi.answerOf_ok hok, hi.answerOf_ok (hinit ▸ hok), xored_congr hwords]
  exact ⟨SameState.advanceBy ⟨hwords, hinit⟩ _, rfl⟩

/-- A command gives instances of equal state the same response, and leaves them in equal states. -/
theorem Instance.SameState.answerOf {c d : Instance} (h : c.SameState d) (i : Instr) :
    (answerOf i c).1.SameState (answerOf i d).1 ∧ (answerOf i c).2 = (answerOf i d).2 := by
  have ⟨hwords, hinit⟩ := h
  by_cases hok : statusCode c.init i = 0
  · cases i with
    | setstate key nonce ctr =>
      have hl : key.length = 32 ∧ nonce.length = 12 := by simpa [statusCode] using hok
      simp only [Machine.answerOf, setstateOn_of_lengths hl]
      exact ⟨⟨rfl, rfl⟩, rfl⟩
    | getctr =>
      have hc : c.init = true := by simpa [statusCode] using hok
      simp only [Machine.answerOf, getctrOn_of_init hc, getctrOn_of_init (hinit ▸ hc), hwords]
      exact ⟨h, rfl⟩
    | setctr value =>
      have hc : c.init = true := by simpa [statusCode] using hok
      simp only [Machine.answerOf, setctrOn_of_init hc, setctrOn_of_init (hinit ▸ hc)]
      exact ⟨h.setCtr value, rfl⟩
    | xform buf => exact h.transform (.xform buf) hok
    | xformr buf start length => exact h.transform (.xformr buf start length) hok
    | xformc src dsize start length => exact h.transform (.xformc src dsize start length) hok
  · rw [answerOf_of_statusCode_ne_zero hok, answerOf_of_statusCode_ne_zero (hinit ▸ hok), hinit]
    exact ⟨h, rfl⟩

/-- A packet, decodable or not, is answered equally by instances of equal state, and leaves them in equal states. -/
theorem Instance.SameState.packetAnswer {c d : Instance} (h : c.SameState d) (p : Packet) :
    (packetAnswer p c).1.SameState (packetAnswer p d).1 ∧ (packetAnswer p c).2 = (packetAnswer p d).2 := by
  cases hd : decode p with
  | ok i => simpa only [Machine.packetAnswer, hd] using h.answerOf i
  | error r =>
    simp only [Machine.packetAnswer, hd]
    exact ⟨h, rfl⟩

/-- What is left of an instance that answered a list of packets, in its order. -/
def answerAll (ps : List Packet) (c : Instance) : Instance := ps.foldl (fun c p => (packetAnswer p c).1.send (packetAnswer p c).2) c

/-- A run over packets that all arrive at one port completes, and its instance there has answered them all. -/
theorem run_commands {instances : List Instance} {port : Nat} {c : Instance} (hc : instances[port]? = some c) (ps : List Packet) :
    ∃ u : State, Sys2Proof.core.run ps.length (⟨instances, ps.map fun p => ⟨port, .command p⟩⟩ : State) = .next u ∧
      u.instances[port]? = some (answerAll ps c) := by
  obtain ⟨hport, -⟩ := List.getElem?_eq_some_iff.mp hc
  have hrun := run_inbox instances (ps.map fun p => ⟨port, .command p⟩) (by simpa using fun _ _ => hport)
  rw [List.length_map] at hrun
  refine ⟨_, hrun, ?_⟩
  rw [foldl_serveAt_getElem?, hc]
  simp [answerAll, serve_command, List.filter_map, List.foldl_map, Function.comp_def]

/-- Instances of equal state answer a list of packets with one list of responses, and end in equal states. -/
theorem Instance.SameState.answerAll {c d : Instance} (h : c.SameState d) (ps : List Packet) :
    (answerAll ps c).SameState (answerAll ps d) ∧
    ∃ qs, (answerAll ps c).responses = c.responses ++ qs ∧ (answerAll ps d).responses = d.responses ++ qs := by
  induction ps generalizing c d with
  | nil => exact ⟨h, [], (List.append_nil _).symm, (List.append_nil _).symm⟩
  | cons p ps ih =>
    obtain ⟨hstate, hq⟩ := h.packetAnswer p
    obtain ⟨hend, qs, hc, hd⟩ := ih (hstate.send (Machine.packetAnswer p c).2 (Machine.packetAnswer p d).2)
    simp only [send_responses, packetAnswer_responses, List.append_assoc] at hc hd
    exact ⟨hend, _, hc, by rw [hq]; exact hd⟩

end Sys2Proof.Machine

namespace Sys2Proof.Proofs
open Sys2Proof.Machine Sys2Proof.Spec

/-- Settles O5: the head's port has an instance, so the step commits what serving the head leaves of it. -/
theorem everyAcceptedEventCompletes : Obligations.EveryAcceptedEventCompletes := by
  intro s a rest hports hb
  have ha : a.port < s.instances.length := hports a (by simp [hb])
  refine ⟨_, step_of_inbox hb (List.getElem?_eq_getElem ha), ?_, List.length_set, hports.commit _ _⟩
  simp only [State.commit_inbox, hb, List.tail_cons]

/-- Settles O7: an executing instance completes the command, and without one `runCommand` stops. -/
theorem execStopsOnlyWithoutAnInstance : Obligations.ExecStopsOnlyWithoutAnInstance := by
  intro i s
  constructor
  · rintro hfault ⟨port, c, hx⟩
    cases hfault.symm.trans (exec_of_executing hx i)
  · intro hnone
    rw [exec_eq_runCommand, runCommand_of_not_executing hnone]

/-- Settles O13: the decoder's tests are those of rule R75, and the answer to a packet that fails them is an error. -/
theorem illegalPacketsAreAnsweredAndHaveNoEffect : Obligations.IllegalPacketsAreAnsweredAndHaveNoEffect := by
  refine fun p => ⟨exists_decode_error_iff p, fun s port rest c hp hb hc => ?_⟩
  rw [step_command hb hc, packetAnswer_of_illegalPacket hp, State.commit, hb]
  rfl

/-- Settles O16: an answer that is not OK was taken by `raiseError`, which keeps the instance. -/
theorem errorsHaveNoEffect : Obligations.ErrorsHaveNoEffect := by
  intro p s t port rest c c' q hb hc ht hc' hresp hne
  cases ht.symm.trans (step_command hb hc)
  obtain rfl := State.eq_of_commit_getElem? (State.executing_of_inbox hb hc) hc'
  obtain rfl : (packetAnswer p c).2 = q := by simpa using hresp
  obtain hok | ⟨st, herr⟩ := packetAnswer_ok_or_error p c
  · exact absurd hok hne
  · rw [herr, State.commit, hb]
    exact ⟨rfl, rfl⟩

/-- Settles O17: the answer's status word is `statusCode`, and an illegal packet's is 4. -/
theorem statusIsTheFirstErrorInPriority : Obligations.StatusIsTheFirstErrorInPriority := by
  refine ⟨fun i s port c hx => ?_, fun p s port c rest hp hb hc => ?_⟩
  · obtain ⟨t, ht, hq⟩ := exec_lastResponse hx i
    exact ⟨t, _, ht, hq, answerOf_header_toNat i c⟩
  · refine ⟨_, _, step_command hb hc, State.lastResponse_commit (State.executing_of_inbox hb hc) _ _, ?_⟩
    rw [packetAnswer_of_illegalPacket hp]
    rfl

/-- Settles O18: every command but SETSTATE tests INIT first, and SETSTATE's codes are 0 and 1. -/
theorem uninitialisedInstanceAnswersNotInitialised : Obligations.UninitialisedInstanceAnswersNotInitialised := by
  intro i s port c hx
  have herror : i.opcode ≠ .setstate → c.init = false → exec i s = .next
      { instances := s.instances.set port { c with responses := c.responses ++ [⟨0x00000005, []⟩] }, inbox := s.inbox.tail } := by
    intro hi hinit
    rw [exec_of_executing hx, answerOf_of_not_init hi hinit]
    rfl
  cases i with
  | setstate key nonce ctr =>
    intro t ht hlast
    obtain ⟨t', ht', hq⟩ := exec_lastResponse hx (.setstate key nonce ctr)
    cases ht.symm.trans ht'
    have hcode := answerOf_header_toNat (.setstate key nonce ctr) c
    rw [Option.some.inj (hq.symm.trans hlast), statusCode] at hcode
    split at hcode <;> cases hcode
  | _ => exact herror nofun

/-- Settles O19: a wrong length is SETSTATE's one error. -/
theorem setstateRejectsWrongLengths : Obligations.SetstateRejectsWrongLengths := by
  intro key nonce ctr s port c hx hl
  exact exec_of_statusCode hx (if_pos hl) (by decide)

/-- Settles O20: on an initialised instance the sizes are compared before the range. -/
theorem xformcRejectsSizeMismatch : Obligations.XformcRejectsSizeMismatch := by
  intro src dsize start length s port c hx hinit hs
  exact exec_of_statusCode hx (by simp [statusCode, hinit, hs]) (by decide)

/-- Settles O21: INIT is 1 and the sizes agree, so the range is the first error met. -/
theorem rangeViolationsAreRejected : Obligations.RangeViolationsAreRejected := by
  intro B start length s port c hx hinit
  refine ⟨fun hr => ?_, fun dsize hs hr => ?_⟩
  · exact exec_of_statusCode hx (by simp [statusCode, hinit, hr]) (by decide)
  · exact exec_of_statusCode hx (by simp [statusCode, hinit, hs, hr]) (by decide)

/-- Settles O58: both runs serve all their packets, and each packet is answered equally from equal states. -/
theorem equalInstancesAnswerEqually : Obligations.EqualInstancesAnswerEqually := by
  intro ps instances instances' port port' c c' hc hc' hwords hinit
  obtain ⟨u, hu, hd⟩ := run_commands hc ps
  obtain ⟨u', hu', hd'⟩ := run_commands hc' ps
  have hsame : c.SameState c' := ⟨hwords, hinit⟩
  obtain ⟨⟨hwords', hinit'⟩, qs, hqs, hqs'⟩ := hsame.answerAll ps
  exact ⟨u, u', _, _, qs, hu, hu', hd, hd', hqs, hqs', hwords', hinit'⟩

end Sys2Proof.Proofs
end

section
/-! PROOFS of the reset and hazard statements (70_reset_and_hazards.md): what a reset leaves, the one packet that sets INIT, and the period
of the keystream. -/

namespace Sys2Proof.Machine

/-! ### Reset (rules R230 and R231) -/

/-- A reset event is served by the reset of its instance, whatever packet it abandons. -/
theorem serve_of_reset {e : HostEvent} (h : e = .reset ∨ ∃ p, e = .resetDuring p) (port : Nat) (c : Instance) :
    serve port c e = c.resetOn port := by
  obtain rfl | ⟨p, rfl⟩ := h <;> rfl

/-! ### Booting (rule R233) -/

/-- A packet that boots an instance: a SETSTATE with KLEN = 32 and NLEN = 12. -/
def BootPacket (p : Packet) : Prop :=
  ∃ key nonce ctr, decode p = .ok (.setstate key nonce ctr) ∧ key.length = 32 ∧ nonce.length = 12

/-- OK is the one status whose word is 0 (rule R200). -/
theorem Status.word_eq_zero_iff (st : Status) : st.word = 0 ↔ st = .ok := by cases st <;> decide

/-- A boot packet is answered OK, and it sets INIT. -/
theorem packetAnswer_of_bootPacket {p : Packet} (h : BootPacket p) (c : Instance) :
    (packetAnswer p c).2.header = 0 ∧ (packetAnswer p c).1.init = true := by
  obtain ⟨key, nonce, ctr, hd, hl⟩ := h
  simp only [packetAnswer, hd, answerOf, setstateOn_of_lengths hl]
  exact ⟨rfl, rfl⟩

/-- Any other packet ends with an error on an instance whose INIT is 0. -/
theorem packetAnswer_of_not_bootPacket {p : Packet} (h : ¬ BootPacket p) {c : Instance} (hc : c.init = false) :
    ∃ st, st ≠ .ok ∧ packetAnswer p c = raiseError st c := by
  cases hd : decode p with
  | error r => exact ⟨.illegalCommand, nofun, by simp only [packetAnswer, hd]⟩
  | ok i =>
    simp only [packetAnswer, hd]
    by_cases hi : i.opcode = .setstate
    · obtain ⟨key, nonce, ctr, rfl⟩ := eq_setstate_of_opcode hi
      have hl : ¬ (key.length = 32 ∧ nonce.length = 12) := fun hl => h ⟨key, nonce, ctr, hd, hl⟩
      exact ⟨.invalidArgument, nofun, setstateOn_of_wrong_lengths hl ctr c⟩
    · exact ⟨.notInitialised, nofun, answerOf_of_not_init hi hc⟩

/-- On an instance whose INIT is 0, OK is the answer to the boot packets, and to them alone. -/
theorem packetAnswer_header_eq_zero_iff (p : Packet) {c : Instance} (hc : c.init = false) :
    (packetAnswer p c).2.header = 0 ↔ BootPacket p := by
  refine ⟨fun hok => ?_, fun h => (packetAnswer_of_bootPacket h c).1⟩
  by_contra h
  obtain ⟨st, hne, herr⟩ := packetAnswer_of_not_bootPacket h hc
  rw [herr] at hok
  exact hne (st.word_eq_zero_iff.mp hok)

/-- On an instance whose INIT is 0, INIT is set by the boot packets, and by them alone. -/
theorem packetAnswer_init_iff (p : Packet) {c : Instance} (hc : c.init = false) :
    (packetAnswer p c).1.init = true ↔ BootPacket p := by
  refine ⟨fun hinit => ?_, fun h => (packetAnswer_of_bootPacket h c).2⟩
  by_contra h
  obtain ⟨st, -, herr⟩ := packetAnswer_of_not_bootPacket h hc
  rw [herr] at hinit
  cases hinit.symm.trans hc

/-! ### The period of the counter pair (rule R244) -/

/-- Two instances of equal registers, INIT, responses and draws are one. -/
theorem Instance.eq_of_words {c d : Instance} (hwords : c.words = d.words) (hinit : c.init = d.init) (hresp : c.responses = d.responses)
    (hdraws : c.draws = d.draws) : c = d := by
  obtain ⟨hkey, hctr, hnonce⟩ := (Instance.words_eq_iff c d).mp hwords
  cases c; cases d
  simp_all only

/-- A multiple of 2^32 is 0 as a word. -/
theorem ofNat_eq_zero_of_dvd {n : Nat} (h : 2 ^ 32 ∣ n) : BitVec.ofNat 32 n = 0#32 :=
  BitVec.eq_of_toNat_eq (by simpa using Nat.mod_eq_zero_of_dvd h)

/-- A multiple of 2^64 advances wraps the counter, and its carries wrap `S[13]`. -/
theorem advanceBy_eq_self_of_dvd {n : Nat} (h : 2 ^ 64 ∣ n) (c : Instance) : advanceBy n c = c := by
  obtain ⟨h0, h1, h2⟩ := advanceBy_nonce n c
  have hctr : (advanceBy n c).ctr = c.ctr := by
    rw [advanceBy_ctr, ofNat_eq_zero_of_dvd (by omega), BitVec.add_zero]
  have hcarries : 2 ^ 32 ∣ (c.ctr.toNat + n) / 2 ^ 32 := by
    have := c.ctr.isLt
    omega
  have hnonce : (advanceBy n c).nonce = c.nonce := by
    rw [ofNat_eq_zero_of_dvd hcarries, BitVec.add_zero] at h0
    ext1 i hi
    interval_cases i
    exacts [h0, h1, h2]
  exact Instance.eq_of_words ((Instance.words_eq_iff _ _).mpr ⟨advanceBy_key n c, hctr, hnonce⟩) (advanceBy_init n c)
    (advanceBy_responses n c) (advanceBy_draws n c)

end Sys2Proof.Machine

namespace Sys2Proof.Proofs
open Sys2Proof.Machine Sys2Proof.Spec

/-- Settles O43: 2^64 advances are the identity, so the keystream past 2^64 blocks is the keystream itself. -/
theorem keystreamRepeatsAfterTwoToThe64Blocks : Obligations.KeystreamRepeatsAfterTwoToThe64Blocks := by
  intro c
  have hperiod : advanceBy (2 ^ 64) c = c := advanceBy_eq_self_of_dvd dvd_rfl c
  refine ⟨hperiod, fun p => ?_⟩
  rw [Nat.add_comm, ← keystream_advanceBy, hperiod]

/-- Settles O54: the step commits the packet's answer, which is OK, and sets INIT, exactly for a boot packet. -/
theorem onlySetstateBootsAnInstance : Obligations.OnlySetstateBootsAnInstance := by
  intro s t port p rest c c' hb hc hinit ht hc'
  cases ht.symm.trans (step_command hb hc)
  obtain rfl := State.eq_of_commit_getElem? (State.executing_of_inbox hb hc) hc'
  have hok := packetAnswer_header_eq_zero_iff p hinit
  refine ⟨(packetAnswer p c).2, ?_, hok, hok.trans (packetAnswer_init_iff p hinit).symm⟩
  rw [Instance.send_responses, packetAnswer_responses]

/-- Settles O4: with an empty inbox there is no event to serve. -/
theorem coreWaitsWithNothingPresented : Obligations.CoreWaitsWithNothingPresented := fun _ => step_of_inbox_nil

/-- Settles O53: both reset events leave the instance's reset, in which INIT is 0 and the responses and the hardwired words stand. -/
theorem resetEventClearsInitAndSendsNothing : Obligations.ResetEventClearsInitAndSendsNothing := by
  intro s a rest c hb hc he
  refine ⟨c.resetOn a.port, ?_, rfl, rfl, rfl, rfl, rfl, rfl⟩
  rw [step_of_inbox hb hc, serve_of_reset he, State.commit, hb, List.tail_cons]

end Sys2Proof.Proofs
end
